-- ==== Sys2Proof/Word.lean ====
section
/-! DEFINITION. The one word type of the block: the byte (rule R13). Every access of the block moves exactly one
(rule R78), so there is no wider word, no byte order and no alignment (rules R75, R77). -/

namespace Sys2Proof

/-- A byte: 8 bits, an unsigned value 0 to 255 (rule R13). -/
abbrev Byte := BitVec 8

end Sys2Proof
end

