-- ==== Sys2Proof/Machine/Enums.lean ====
section
/-! DEFINITION. The enumerations of the spec (rules R8, R31, R33, R110, R224) and the codes rule R40 and rule R110 give
them, and the four literals of rule R10. The codes only serve to write a decode key as bits: no rule's result depends on
them (rule R40, decision D7). -/

namespace Sys2Proof.Machine

/-- `MODE` (rule R8): how the transport is built. -/
inductive Mode where
  | packet
  | stream
deriving DecidableEq, Repr

/-- `su_state` (rule R31). The code `0b11` is no state of the block and cannot be written here (U5). -/
inductive SuState where
  | waitInput
  | drainInput
  | operational
deriving DecidableEq, Repr

/-- `rx_state` (rule R33). -/
inductive RxState where
  | idle
  | sawFirstSync
  | sawSecondSync
  | readingPayload
deriving DecidableEq, Repr

/-- `cmd_op` (rule R110): the command code the host presents. -/
inductive CmdOp where
  | nop
  | send
  | poll
  | wait
deriving DecidableEq, Repr

/-- The address type (rule R224): one value, no bits. -/
inductive Peer where
  | peer
deriving DecidableEq, Repr

/-- The two readings of a packet poll that rule R84 admits: taken whole over the bytes waiting at one instant, or one
byte a step with the line free to append in between. The model's own choice of schedule, never written by a step. -/
inductive PollGrain where
  | whole
  | perByte
deriving DecidableEq, Repr

/-- First byte of the sync marker (rules R8, R10, D28). -/
def syncByte1 : Byte := 0xFF#8

/-- Second byte of the sync marker (rules R8, R10, D28). -/
def syncByte2 : Byte := 0x55#8

/-- Timeout of `WaitInput` in milliseconds (rules R8, R10, D28). -/
def tWait : Nat := 5000

/-- Timeout of `DrainInput` in milliseconds (rules R8, R10, D28). -/
def tDrain : Nat := 1000

/-- `MODE`: `PACKET = 0`, `STREAM = 1` (rule R40). -/
def Mode.code : Mode → BitVec 1
  | .packet => 0#1
  | .stream => 1#1

/-- The mode of a code (rule R40); both codes are modes. -/
def Mode.ofCode (c : BitVec 1) : Mode :=
  if c = 0#1 then .packet else .stream

/-- `su_state` codes (rule R40). -/
def SuState.code : SuState → BitVec 2
  | .waitInput => 0b00#2
  | .drainInput => 0b01#2
  | .operational => 0b10#2

/-- The startup state of a code; `0b11` is reserved (rules R40, R113). -/
def SuState.ofCode (c : BitVec 2) : Option SuState :=
  if c = 0b00#2 then some .waitInput
  else if c = 0b01#2 then some .drainInput
  else if c = 0b10#2 then some .operational
  else none

/-- `rx_state` codes (rule R40). -/
def RxState.code : RxState → BitVec 2
  | .idle => 0b00#2
  | .sawFirstSync => 0b01#2
  | .sawSecondSync => 0b10#2
  | .readingPayload => 0b11#2

/-- The receiver state of a code; all four are states (rules R40, R113). -/
def RxState.ofCode (c : BitVec 2) : RxState :=
  if c = 0b00#2 then .idle
  else if c = 0b01#2 then .sawFirstSync
  else if c = 0b10#2 then .sawSecondSync
  else .readingPayload

/-- `cmd_op` codes (rule R110). -/
def CmdOp.code : CmdOp → BitVec 2
  | .nop => 0b00#2
  | .send => 0b01#2
  | .poll => 0b10#2
  | .wait => 0b11#2

/-- The command of a code; all four are commands (rule R110). -/
def CmdOp.ofCode (c : BitVec 2) : CmdOp :=
  if c = 0b00#2 then .nop
  else if c = 0b01#2 then .send
  else if c = 0b10#2 then .poll
  else .wait

end Sys2Proof.Machine
end

