-- ==== Sys2Proof/Machine/Mem.lean ====
section
/-! DEFINITION. Byte memories addressed from 0 (rules R14, R70, R71, R74): the receive buffer and the caller's buffer.
A memory is a list of cells with strictly rising addresses; a cell that is not listed has no value (rule R36: "a cell has
a defined value only after a payload byte was stored in it"; U2), so equal memories are equal data. -/

namespace Sys2Proof.Machine

/-- Cells, addresses strictly rising. -/
abbrev Mem := List Host.Cell

/-- What an unlisted address reads as: no value (rule R46, U2: a model gives the cells no value). -/
def Mem.unlisted : Option Byte := none

/-- `MemRead` (rule R14). -/
def Mem.read : Mem → Nat → Option Byte
  | [], _ => Mem.unlisted
  | c :: m, i => if c.1 = i then some c.2 else Mem.read m i

/-- `MemWrite` (rule R14): one byte at one index, the canonical form kept. -/
def Mem.write : Mem → Nat → Byte → Mem
  | [], i, v => [(i, v)]
  | c :: m, i, v =>
    if i < c.1 then (i, v) :: c :: m
    else if i = c.1 then (i, v) :: m
    else c :: Mem.write m i v

/-- Bytes written at consecutive indices from `i`, the first byte first (rules R74, R192). -/
def Mem.writeAll : Mem → Nat → List Byte → Mem
  | m, _, [] => m
  | m, i, b :: bs => Mem.writeAll (Mem.write m i b) (i + 1) bs

/-- The canonical form: every address is below the next one, and no entry reads as an unlisted address does. -/
def Mem.wf : Mem → Bool
  | [] => true
  | [c] => decide (some c.2 ≠ Mem.unlisted)
  | c :: d :: m => decide (some c.2 ≠ Mem.unlisted) && decide (c.1 < d.1) && Mem.wf (d :: m)

/-- Every listed address is below `n` (the receive buffer has `MTU` cells, rule R36). -/
def Mem.below (n : Nat) (m : Mem) : Bool :=
  m.all fun c => decide (c.1 < n)

end Sys2Proof.Machine
end

