-- ==== Sys2Proof/Machine/Rx.lean ====
section
/-! DEFINITION. The receiver of the Frame Codec on its own registers: one function per transition (rules R182 to R189),
the combined byte step (rule R190), a run over a list of bytes (`RxRun`, rule R190) and the loop of a packet poll (rule
R191). It reads no queue and no clock: the caller pops the byte and hands it in (rule R181). -/

namespace Sys2Proof.Machine

/-- The receiver's registers and its buffer (rules R33 to R36). -/
structure Rx where
  /-- `rx_state`, 2 bits (rule R33). -/
  state : RxState
  /-- `rx_remaining`, 8 bits (rule R34). -/
  remaining : Byte
  /-- `rx_cursor`, 8 bits (rule R35). -/
  cursor : Byte
  /-- `rx_buf`, `MTU` cells (rule R36). -/
  buf : Mem
  /-- The model's own ghost (log 30): `L`, the length byte last accepted by `RX.LEN`, of which rule R41 (c) speaks. The block
  has no such register, and no transition reads it. -/
  accepted : Byte
deriving DecidableEq, Repr

/-- The receiver after reset (rule R46): no cell of the buffer has a value. -/
def Rx.reset : Rx :=
  { state := .idle, remaining := 0, cursor := 0, buf := [], accepted := 0 }

/-- `RX.SYNC1` (rule R182). -/
def Rx.sync1 (r : Rx) : Rx :=
  { r with state := .sawFirstSync }

/-- `RX.SKIP` (rule R183). -/
def Rx.skip (r : Rx) : Rx :=
  { r with state := .idle }

/-- `RX.SYNC2` (rule R184). -/
def Rx.sync2 (r : Rx) : Rx :=
  { r with state := .sawSecondSync }

/-- `RX.RESYNC` (rule R185): a second `0xFF` is a mismatch too, and the byte is not looked at again. -/
def Rx.resync (r : Rx) : Rx :=
  { r with state := .idle }

/-- `RX.LEN` (rule R186): the byte is the number of payload bytes to come (rule R103), and the ghost keeps it. -/
def Rx.len (l : Byte) (r : Rx) : Rx :=
  { r with state := .readingPayload, remaining := l, cursor := 0, accepted := l }

/-- `RX.BADLEN` (rule R187). -/
def Rx.badlen (r : Rx) : Rx :=
  { r with state := .idle }

/-- "Append byte to buffer" (rules R71, R188, R189): one write at the cursor, then the cursor moves on. `none` where the
index is at or above `MTU`: the buffer has no such cell and the rules give that write no behaviour (rule R77). -/
def Rx.append (mtu : Nat) (b : Byte) (r : Rx) : Option Rx :=
  if r.cursor.toNat < mtu then
    some { r with buf := r.buf.write r.cursor.toNat b, cursor := r.cursor + 1 }
  else none

/-- `RX.DATA` (rule R188). -/
def Rx.data (mtu : Nat) (b : Byte) (r : Rx) : Option Rx :=
  (r.append mtu b).map fun q => { q with remaining := q.remaining - 1, state := .readingPayload }

/-- `RX.LAST` (rule R189). -/
def Rx.last (mtu : Nat) (b : Byte) (r : Rx) : Option Rx :=
  (r.append mtu b).map fun q => { q with remaining := 0, state := .idle }

/-- A length byte that is taken as a length: `1 <= l` and `l <= MTU`, unsigned (rules R103, R114, R196). -/
def legalLength (mtu : Nat) (l : Byte) : Bool :=
  decide (1 ≤ l.toNat) && decide (l.toNat ≤ mtu)

/-- `RxByte` (rule R190): one transition, and whether it completed a frame (`done`). -/
def Rx.byte (mtu : Nat) (b : Byte) (r : Rx) : Option (Rx × Bool) :=
  match r.state with
  | .idle => if b = syncByte1 then some (r.sync1, false) else some (r.skip, false)
  | .sawFirstSync => if b = syncByte2 then some (r.sync2, false) else some (r.resync, false)
  | .sawSecondSync => if legalLength mtu b then some (r.len b, false) else some (r.badlen, false)
  | .readingPayload =>
    if 1 < r.remaining.toNat then (r.data mtu b).map fun q => (q, false)
    else (r.last mtu b).map fun q => (q, true)

/-- The reported frame: the cells `rx_buf[0 .. rx_cursor-1]` (rule R189). -/
def Rx.frame (r : Rx) : List (Option Byte) :=
  (List.range r.cursor.toNat).map r.buf.read

/-- `RxRun` (rule R190): `RxByte` on each byte in order, with the frames reported on the way, oldest first. The properties of
rule R197 are stated over it. -/
def Rx.run (mtu : Nat) : List Byte → Rx → Option (Rx × List (List (Option Byte)))
  | [], r => some (r, [])
  | b :: bs, r =>
    match r.byte mtu b with
    | none => none
    | some (q, done) =>
      match Rx.run mtu bs q with
      | none => none
      | some (q', fs) => some (q', if done then q.frame :: fs else fs)

/-- The loop of `POLL.P` (rule R191) over the bytes waiting: the receiver where it stops, whether it stopped at a
completed frame, and the bytes left in the receive source. -/
def Rx.poll (mtu : Nat) : List Byte → Rx → Option (Rx × Bool × List Byte)
  | [], r => some (r, false, [])
  | b :: bs, r =>
    match r.byte mtu b with
    | none => none
    | some (q, true) => some (q, true, bs)
    | some (q, false) => Rx.poll mtu bs q

/-- `TermSafe` (rule R11): the receiver, started in `Idle`, reports no frame over these bytes and ends in `Idle`. -/
def termSafe (mtu : Nat) (term : List Byte) : Bool :=
  match Rx.run mtu term Rx.reset with
  | some (r, fs) => decide (r.state = .idle) && fs.isEmpty
  | none => false

end Sys2Proof.Machine
end

