-- ==== Sys2Proof/Config.lean ====
section
/-! DEFINITION. The build-time parameters of the block (rule R8) and the one free value of the model. The four fixed
literals are in Machine/Enums.lean. Which parameter values are a configuration of this hardware is `Config.wf`
(WellFormed.lean): a breach is unconstructible, never a run-time fault (rules R9, R242, U17). -/

namespace Sys2Proof

/-- The parameters of rule R8. None changes at run time: no step of the machine writes a field of it. -/
structure Config where
  /-- `MODE`: packet framing or stream. -/
  mode : Machine.Mode
  /-- `MTU`: the largest payload in bytes. -/
  mtu : Nat
  /-- `TERM`: the frame terminator, `TL >= 0` bytes (rule R11). -/
  term : List Byte
  /-- `CW`: width in bits of the clock reading (rule R12). -/
  cw : Nat
  /-- `LENW`: width in bits of the `length` operand. -/
  lenw : Nat
  /-- `CAPW`: width in bits of the `capacity` operand. -/
  capw : Nat
deriving DecidableEq, Repr

/-- The configuration `State.reset` carries. DESIGN CHOICE (log 2), unsafe: the spec leaves `MODE`, `MTU` and `TERM`
open; these are the values 95_test_vectors.md uses unless a vector says otherwise. `CW`, `LENW` and `CAPW` are the spec's
defaults. Statements range over every configuration, not over this one. -/
def Config.initial : Config :=
  { mode := .packet, mtu := 8, term := [], cw := 32, lenw := 16, capw := 16 }

/-- FREE VALUE (log 4): what the host's read port gives at its `reading`-th use for a cell of `rx_buf` it may not rely on
(U2, U3, decision D29: such a cell reads "as any value"). No body: nothing can be proved of it, not even that two
readings of one cell agree. -/
opaque Config.freeCell (reading index : Nat) : Byte

end Sys2Proof
end

