-- ==== Sys2Proof/Syntax.lean ====
section
/-! DEFINITION. The 22 instructions of spec/opcode_table.json, in the table's order (rule R119): an instruction is one
transition of a state machine or one host operation (rule R7). A constructor's arguments are the bits of its decode key
that a field letter names; a bit the table marks `-` is not examined and is no operand (rule R109, log 26). The operands
of a host command travel beside the key (rule R110): they are in the state's command port. -/

namespace Sys2Proof

/-- One constructor per row of the opcode table. -/
inductive Instr where
  /-- `RX.SYNC1` (rule R182), format K. -/
  | rxSync1
  /-- `RX.SKIP` (rule R183), format K: the discarded byte. -/
  | rxSkip (b : Byte)
  /-- `RX.SYNC2` (rule R184), format K. -/
  | rxSync2
  /-- `RX.RESYNC` (rule R185), format K: the discarded byte. -/
  | rxResync (b : Byte)
  /-- `RX.LEN` (rule R186), format K: the length byte. -/
  | rxLen (l : Byte)
  /-- `RX.BADLEN` (rule R187), format K: the malformed length byte. -/
  | rxBadlen (l : Byte)
  /-- `RX.DATA` (rule R188), format K: a payload byte that is not the last. -/
  | rxData (b : Byte)
  /-- `RX.LAST` (rule R189), format K: the last payload byte. -/
  | rxLast (b : Byte)
  /-- `SU.EXPIRE_WAIT` (rule R142), format S. -/
  | suExpireWait
  /-- `SU.FIRST` (rule R143), format S. -/
  | suFirst
  /-- `SU.HOLD_WAIT` (rule R144), format S. -/
  | suHoldWait
  /-- `SU.EXPIRE_DRAIN` (rule R145), format S. -/
  | suExpireDrain
  /-- `SU.DRAIN` (rule R146), format S. -/
  | suDrain
  /-- `SU.HOLD_DRAIN` (rule R147), format S. -/
  | suHoldDrain
  /-- `SU.DONE` (rule R148), format S. -/
  | suDone
  /-- `NOP` (rule R223), format H. -/
  | nop
  /-- `SEND.P` (rule R161), format H. -/
  | sendP
  /-- `SEND.S` (rule R162), format H. -/
  | sendS
  /-- `POLL.P` (rule R191), format H. -/
  | pollP
  /-- `POLL.S` (rule R192), format H. -/
  | pollS
  /-- `WAIT` (rule R222), format H. -/
  | wait
  /-- `CREATE` (rule R221), format RST. -/
  | create
deriving DecidableEq, Repr

end Sys2Proof
end

