-- ==== Sys2Proof/WellFormed.lean ====
section
/-! DEFINITION. What makes a configuration a configuration of this hardware (rules R9, R11, R12, U17) and an instruction
an instruction the decode tables can select (rules R107, R109, R111). -/

namespace Sys2Proof

/-- The configuration is one of this hardware: `MTU >= 1`; `MTU <= 255` in packet mode (rule R9); `TermSafe(TERM)` (rule
R11); `CW >= 14` (rule R12); `2^LENW - 1 >= MTU + 1` (rule R8). -/
def Config.wf (c : Config) : Bool :=
  decide (1 ≤ c.mtu) &&
  (decide (c.mode = .stream) || decide (c.mtu ≤ 255)) &&
  Machine.termSafe c.mtu c.term &&
  decide (14 ≤ c.cw) &&
  decide (c.mtu + 1 ≤ 2 ^ c.lenw - 1)

/-- The instruction meets the further condition of its row (rule R107), given the parameter `MTU` and the register
`rx_remaining`, the two values that are not in the key (rule R106). Rows without a further condition are always well
formed. `RX.LAST` is selected by every `rx_remaining` that is not above 1 (rule R190); 0 does not occur in
`ReadingPayload` (rule R41 b). -/
def Instr.wf (mtu : Nat) (remaining : Byte) : Instr → Bool
  | .rxSync1 => true
  | .rxSkip b => decide (b ≠ Machine.syncByte1)
  | .rxSync2 => true
  | .rxResync b => decide (b ≠ Machine.syncByte2)
  | .rxLen l => Machine.legalLength mtu l
  | .rxBadlen l => !Machine.legalLength mtu l
  | .rxData _ => decide (1 < remaining.toNat)
  | .rxLast _ => decide (remaining.toNat ≤ 1)
  | .suExpireWait => true
  | .suFirst => true
  | .suHoldWait => true
  | .suExpireDrain => true
  | .suDrain => true
  | .suHoldDrain => true
  | .suDone => true
  | .nop => true
  | .sendP => true
  | .sendS => true
  | .pollP => true
  | .pollS => true
  | .wait => true
  | .create => true

end Sys2Proof
end

