-- ==== Sys2Proof/Decode.lean ====
section
/-! DEFINITION. Decode keys, the decoder and the encoder (30_encoding.md, rules R106 to R113, R119), the opcode table's
`match` and `mask` of every row, and the reading of a bare table word (`decodeTableWord`).
In the machine a key always comes with its format, because the state says which table is in use; a key is rejected by
name only where the spec has no row for it. -/

namespace Sys2Proof

open Machine

/-- A decode key with its format (rule R100): K, S, H and RST. -/
inductive Key where
  /-- Format K: `rx_state` in bits 9:8, the byte in bits 7:0 (rule R106). -/
  | k (bits : BitVec 10)
  /-- Format S: `su_state` in bits 3:2, `expired` in bit 1, `avail` in bit 0 (rule R108). -/
  | s (bits : BitVec 4)
  /-- Format H: `MODE` in bit 2, `cmd_op` in bits 1:0 (rule R110). -/
  | h (bits : BitVec 3)
  /-- Format RST: the reset input (rule R112). -/
  | rst (bit : BitVec 1)
deriving DecidableEq, Repr

/-- Why a key has no row. -/
inductive KeyError where
  /-- A format S key with the state code `0b11`, which is no state (rule R113 a, U5). -/
  | reservedSuState
  /-- A format RST key with the reset input at 0: nothing is requested (rule R112). -/
  | resetNotAsserted
deriving DecidableEq, Repr

/-- A yes or no as one bit of a key. -/
def bitOf (b : Bool) : BitVec 1 :=
  if b then 1#1 else 0#1

/-- The receiver key `{rx_state, byte}` (rule R106). -/
def keyK (st : RxState) (b : Byte) : BitVec 10 :=
  st.code ++ b

/-- The startup key `{su_state, expired, avail}` (rule R108). -/
def keyS (st : SuState) (expired avail : Bool) : BitVec 4 :=
  (st.code ++ bitOf expired : BitVec 3) ++ bitOf avail

/-- The host command key `{MODE, cmd_op}` (rule R110). -/
def keyH (m : Mode) (op : CmdOp) : BitVec 3 :=
  m.code ++ op.code

/-- The receiver decode table (rule R107), with the two values that are not in the key: `MTU` and `rx_remaining`. -/
def decodeK (mtu : Nat) (remaining : Byte) (key : BitVec 10) : Instr :=
  let b : Byte := key.extractLsb' 0 8
  match RxState.ofCode (key.extractLsb' 8 2) with
  | .idle => if b = syncByte1 then .rxSync1 else .rxSkip b
  | .sawFirstSync => if b = syncByte2 then .rxSync2 else .rxResync b
  | .sawSecondSync => if legalLength mtu b then .rxLen b else .rxBadlen b
  | .readingPayload => if 1 < remaining.toNat then .rxData b else .rxLast b

/-- The startup decode table (rule R109); where `expired` and `avail` are both 1 the timeout row is selected (rule R149),
and the unexamined bits are not looked at. -/
def decodeS (key : BitVec 4) : Except KeyError Instr :=
  let expired := key.extractLsb' 1 1 = 1#1
  let avail := key.extractLsb' 0 1 = 1#1
  match SuState.ofCode (key.extractLsb' 2 2) with
  | some .waitInput => .ok (if expired then .suExpireWait else if avail then .suFirst else .suHoldWait)
  | some .drainInput => .ok (if expired then .suExpireDrain else if avail then .suDrain else .suHoldDrain)
  | some .operational => .ok .suDone
  | none => .error .reservedSuState

/-- The host command table (rule R111). -/
def decodeH (key : BitVec 3) : Instr :=
  match CmdOp.ofCode (key.extractLsb' 0 2), Mode.ofCode (key.extractLsb' 2 1) with
  | .nop, _ => .nop
  | .send, .packet => .sendP
  | .send, .stream => .sendS
  | .poll, .packet => .pollP
  | .poll, .stream => .pollS
  | .wait, _ => .wait

/-- The decoder: total on every key of every format, with a named rejection where there is no row (rules R107, R109,
R111, R112, R113). -/
def decode (mtu : Nat) (remaining : Byte) : Key → Except KeyError Instr
  | .k bits => .ok (decodeK mtu remaining bits)
  | .s bits => decodeS bits
  | .h bits => .ok (decodeH bits)
  | .rst bit => if bit = 1#1 then .ok .create else .error .resetNotAsserted

/-- The key of a well-formed instruction, from the patterns of rules R107, R109, R111 and R112; an unexamined bit is
written 0. -/
def encode : Instr → Key
  | .rxSync1 => .k (keyK .idle syncByte1)
  | .rxSkip b => .k (keyK .idle b)
  | .rxSync2 => .k (keyK .sawFirstSync syncByte2)
  | .rxResync b => .k (keyK .sawFirstSync b)
  | .rxLen l => .k (keyK .sawSecondSync l)
  | .rxBadlen l => .k (keyK .sawSecondSync l)
  | .rxData b => .k (keyK .readingPayload b)
  | .rxLast b => .k (keyK .readingPayload b)
  | .suExpireWait => .s (keyS .waitInput true false)
  | .suFirst => .s (keyS .waitInput false true)
  | .suHoldWait => .s (keyS .waitInput false false)
  | .suExpireDrain => .s (keyS .drainInput true false)
  | .suDrain => .s (keyS .drainInput false true)
  | .suHoldDrain => .s (keyS .drainInput false false)
  | .suDone => .s (keyS .operational false false)
  | .nop => .h (keyH .packet .nop)
  | .sendP => .h (keyH .packet .send)
  | .sendS => .h (keyH .stream .send)
  | .pollP => .h (keyH .packet .poll)
  | .pollS => .h (keyH .stream .poll)
  | .wait => .h (keyH .packet .wait)
  | .create => .rst 1#1

/-- A row of opcode_table.json: the row is selected only if `key & mask = match` (rule R119). -/
structure TableRow where
  /-- The number of bits of the row's key format. -/
  width : Nat
  /-- The bits the key must have where the mask is 1. -/
  pattern : Nat
  /-- Which bits of the key are examined. -/
  mask : Nat
deriving DecidableEq, Repr

/-- The `match` and `mask` columns of opcode_table.json, copied row by row. -/
def tableRow : Instr → TableRow
  | .rxSync1 => ⟨10, 0x0FF, 0x3FF⟩
  | .rxSkip _ => ⟨10, 0x000, 0x300⟩
  | .rxSync2 => ⟨10, 0x155, 0x3FF⟩
  | .rxResync _ => ⟨10, 0x100, 0x300⟩
  | .rxLen _ => ⟨10, 0x200, 0x300⟩
  | .rxBadlen _ => ⟨10, 0x200, 0x300⟩
  | .rxData _ => ⟨10, 0x300, 0x300⟩
  | .rxLast _ => ⟨10, 0x300, 0x300⟩
  | .suExpireWait => ⟨4, 0x2, 0xE⟩
  | .suFirst => ⟨4, 0x1, 0xF⟩
  | .suHoldWait => ⟨4, 0x0, 0xF⟩
  | .suExpireDrain => ⟨4, 0x6, 0xE⟩
  | .suDrain => ⟨4, 0x5, 0xF⟩
  | .suHoldDrain => ⟨4, 0x4, 0xF⟩
  | .suDone => ⟨4, 0x8, 0xC⟩
  | .nop => ⟨3, 0x0, 0x3⟩
  | .sendP => ⟨3, 0x1, 0x7⟩
  | .sendS => ⟨3, 0x5, 0x7⟩
  | .pollP => ⟨3, 0x2, 0x7⟩
  | .pollS => ⟨3, 0x6, 0x7⟩
  | .wait => ⟨3, 0x3, 0x3⟩
  | .create => ⟨1, 0x1, 0x1⟩

/-- How many bits a key has (rule R119). -/
def Key.width : Key → Nat
  | .k _ => 10
  | .s _ => 4
  | .h _ => 3
  | .rst _ => 1

/-- A key's bits as a number, bit 0 the least significant. -/
def Key.toNat : Key → Nat
  | .k bits => bits.toNat
  | .s bits => bits.toNat
  | .h bits => bits.toNat
  | .rst bit => bit.toNat

/-- The key has the row's width and meets the row's `match` and `mask` (rule R119). -/
def TableRow.selects (r : TableRow) (key : Key) : Bool :=
  decide (key.width = r.width) && decide (key.toNat &&& r.mask = r.pattern)

/-- `rx_remaining` as the probe of a bare table word takes it (log 12): the table's word `0x300` stands for both `RX.DATA`
and `RX.LAST`, which only this register tells apart. -/
def probeRemaining : Byte := 2#8

/-- The key a bare table word stands for (log 12, DESIGN CHOICE). The opcode table numbers its four formats from bit 0 and
a word does not say its format, so a convention is needed: the machine itself never needs one, since its state says which
table is in use. A word of more than 8 bits is a K key, the only format whose key is that long, except the three words
that opcode_table.json writes out for a host command in a row it gives more than 8 bits (`POLL.P`, `POLL.S`, `WAIT`); a
word of at most 8 bits is an S key, the table in use at reset. Bits above the key's width are no bits of the key. -/
def keyOfTableWord (nbits w : Nat) : Key :=
  if 8 < nbits then
    if w = 0x002 ∨ w = 0x006 ∨ w = 0x003 then .h (BitVec.ofNat 3 w) else .k (BitVec.ofNat 10 w)
  else .s (BitVec.ofNat 4 w)

/-- The instruction the decoder reads from a bare word of opcode_table.json (log 12), under the configuration
`State.reset` carries. -/
def decodeTableWord (nbits w : Nat) : Option Instr :=
  match decode Config.initial.mtu probeRemaining (keyOfTableWord nbits w) with
  | .ok i => some i
  | .error _ => none

end Sys2Proof
end

