-- ==== Sys2Proof/Machine/State.lean ====
section
/-! DEFINITION. The state of the machine: every register of the block (rule R30), the environment objects a model keeps
beside it (rule R44), the build-time configuration (rule R39), the host's ports (decisions D2, D6) and the schedule of the
environment. Plain data. -/

namespace Sys2Proof.Machine

/-- A host command with its operands (rule R110, decision D6). The operand lines are there whatever the code is. -/
structure Command where
  /-- `cmd_op`. -/
  op : CmdOp
  /-- `length` of `send`; `LENW` bits of it exist (`Command.lengthOf`). -/
  length : Nat
  /-- `payload` of `send`: bytes in host memory (rule R74). -/
  payload : List Byte
  /-- `destination` of `send`: one value, ignored (rules R167, R224). -/
  destination : Peer
  /-- `capacity` of `poll_receive`. In stream mode `CAPW` bits of it exist (`Command.capacityOf`). In packet mode the block
  does not examine it: it is the size of the host's own buffer, whose precondition `capacity >= MTU` the model tests in the
  block's place (rule R199, U10, log 8). -/
  capacity : Nat
  /-- `timeout` of `wait`: not used (rule R222). -/
  timeout : Nat
deriving DecidableEq, Repr

/-- The idle value of the command port (rule R223): `NOP`, operands 0. -/
def Command.idle : Command :=
  { op := .nop, length := 0, payload := [], destination := .peer, capacity := 0, timeout := 0 }

/-- Why a command was not accepted (rule R226). -/
inductive TurnedAway where
  /-- Before `Operational` (rule R226 a, U8). -/
  | notOperational
  /-- After the fatal breach (rule R226 b, U9). -/
  | faulted
deriving DecidableEq, Repr

/-- How a host command ended: its result (rules R164, R193, R222) or its outcome `fault` or `refused` (rule R16). -/
inductive CmdOutcome where
  /-- `bytes_sent` (rule R164). -/
  | bytesSent (n : Nat)
  /-- `bytes_received` and `source` (rules R193, R198). -/
  | bytesReceived (n : Nat) (source : Peer)
  /-- `has_data` (rule R222). -/
  | hasData (b : Bool)
  /-- The outcome `fault`: the fatal breach with its cause code (rule R241). -/
  | fatal (cause : Nat)
  /-- The outcome `refused`: not accepted, nothing happened (rule R226). -/
  | refused (why : TurnedAway)
deriving DecidableEq, Repr

/-- What the ports show at one evaluation of the block (decisions D2 to D6, log 1). -/
structure Input where
  /-- The clock reading `now` (decision D3). -/
  now : Nat
  /-- The bytes the line appended since the last evaluation (rule R86). -/
  line : List Byte
  /-- The reset input `rst` (decision D2). -/
  rst : Bool
  /-- A command the host newly presents (decision D6). -/
  cmd : Option Command
  /-- Where this evaluation finds reset applied and a `send` in progress: how many bytes of it had been pushed by then (rule
  R281, log 29). -/
  cut : Nat
deriving DecidableEq, Repr

/-- The whole machine. -/
structure State where
  /-- The build-time parameters (rules R8, R39); no step writes them. -/
  cfg : Config
  /-- `su_state` (rule R31). -/
  suState : SuState
  /-- `su_t_entry`, a `CW`-bit unsigned sample of the clock (rule R32, log 11). -/
  suTEntry : Nat
  /-- `rx_state`, `rx_remaining`, `rx_cursor`, `rx_buf` (rules R33 to R36). -/
  rx : Rx
  /-- `fault`, sticky (rule R37). -/
  fault : Bool
  /-- `RXQ`, the receive source, oldest byte first (rule R44 a). -/
  rxq : List Byte
  /-- `TXH`, every byte emitted since reset, in order (rule R44 b). -/
  txh : List Byte
  /-- The model's own ghost (log 29): every byte ever pushed, in order. Reset does not take a byte back (rule R281: "the bytes
  already pushed stay on the wire"); no instruction reads it. -/
  wire : List Byte
  /-- The clock as last driven; `State.now` reads `CW` bits of it (rule R44 c). -/
  clock : Nat
  /-- `DRAINED`, the model's count of bytes the startup controller consumed (rule R44, decision D23). -/
  drained : Nat
  /-- The reset input as last sampled (decision D2). -/
  rst : Bool
  /-- As last sampled: how many bytes of a `send` in progress had been pushed when reset cut it off (rule R281, log 29). -/
  cut : Nat
  /-- Commands presented and not finished, oldest first (rule R225, decision D33, log 24). -/
  cmds : List Command
  /-- How the last finished command ended (decision D6, log 23). -/
  outcome : Option CmdOutcome
  /-- The caller-supplied buffer of a stream poll, by index (rules R70, R74, log 21). -/
  hostBuf : Mem
  /-- The model's own ghost: length of the reported frame the host may still read, 0 if none (rule R87, log 16). -/
  frameLen : Nat
  /-- The model's own choice between the two readings of a packet poll (rule R84, log 7); no step writes it. -/
  pollGrain : PollGrain
  /-- The environment's schedule: what the ports show at the coming evaluations, the next first (log 1). -/
  inputs : List Input
deriving DecidableEq, Repr

/-- A fault stops the machine. -/
inductive Fault where
  /-- Raised by `RX.DATA`, `RX.LAST` and a `POLL.P` that runs one of them, where the write index is at or above `MTU`:
  the buffer has no such cell and the rules give no behaviour (rule R77). Safe; no state of `Inv` reaches it (log 20). -/
  | rxBufIndex
deriving DecidableEq, Repr

/-- A refusal: the spec gives the request no meaning. -/
inductive Refusal where
  /-- Raised by exec's own arms for an instruction without a meaning; no arm raises it. Safe. -/
  | notModelled (mnemonic : String)
  /-- Raised by `SEND.P` and `SEND.S` where `payload` is shorter than `length` (U15, log 9). Safe. -/
  | payloadShort
  /-- Raised by `POLL.P` where `capacity` is below `MTU`: "outside what this spec defines" (rule R199, U10, log 8). Safe. -/
  | capacityShort
  /-- Raised by `SU.FIRST` and `SU.DRAIN` executed with no byte waiting, which their key excludes: `RxPop` is not defined
  there (rule R15, U14, log 19). Safe; `step` never does it. -/
  | noByte
  /-- Raised by `step` on a key without a row (rule R113, U5). Safe; `step` never forms such a key. -/
  | reservedKey (why : KeyError)
deriving DecidableEq, Repr

/-- The state right after reset is released, for a configuration, a clock reading and the bytes the line has already
delivered (rule R46, which leaves these three open). -/
def State.resetWith (cfg : Config) (clock : Nat) (rxq : List Byte) : State :=
  { cfg := cfg
    suState := .waitInput
    suTEntry := clock % 2 ^ cfg.cw
    rx := Rx.reset
    fault := false
    rxq := rxq
    txh := []
    wire := []
    clock := clock
    drained := 0
    rst := false
    cut := 0
    cmds := []
    outcome := none
    hostBuf := []
    frameLen := 0
    pollGrain := .perByte
    inputs := [] }

/-- The machine right after reset (rule R46), with the configuration of log 2 and the clock at 0 and no byte waiting
(log 3), which the spec leaves arbitrary. -/
def State.reset : State :=
  State.resetWith Config.initial 0 []

end Sys2Proof.Machine
end

