-- ==== Sys2Proof/Machine/Flags.lean ====
section
/-! DEFINITION. The derived values of the block: the clock reading, the elapsed time and `expired` (rule R141), `ready`,
`has_data` (rule R38), the cause code (rule R241), and the host's read port onto the receive buffer (decisions D6, D29).
None is stored (rule R38). -/

namespace Sys2Proof.Machine

/-- `Now()`: a `CW`-bit unsigned value (rule R15). -/
def State.now (s : State) : Nat :=
  s.clock % 2 ^ s.cfg.cw

/-- `toSigned_CW(a -_CW b)`: the difference of two clock readings, subtracted modulo `2^CW` and read as a two's-complement
number (rules R13, R141). -/
def clockDiff (cw a b : Nat) : Int :=
  (BitVec.ofNat cw a - BitVec.ofNat cw b).toInt

/-- `elapsed` (rule R141). -/
def State.elapsed (s : State) : Int :=
  clockDiff s.cfg.cw s.now s.suTEntry

/-- The timeout of a startup state (rule R141); `Operational` has none (rule R148). -/
def SuState.timeout : SuState → Option Nat
  | .waitInput => some tWait
  | .drainInput => some tDrain
  | .operational => none

/-- `expired` (rule R141): the comparison is `>=`. In `Operational` there is no timeout to reach and the bit is not
examined (rule R109, log 15). -/
def State.expired (s : State) : Bool :=
  match s.suState.timeout with
  | some t => decide ((t : Int) ≤ s.elapsed)
  | none => false

/-- `RxAvail()` (rule R15), which is also `has_data` (rule R38). -/
def State.rxAvail (s : State) : Bool :=
  !s.rxq.isEmpty

/-- `ready = (su_state == Operational) and (fault == 0)` (rule R38). -/
def State.ready (s : State) : Bool :=
  decide (s.suState = .operational) && !s.fault

/-- The one cause code: `SEND_OVERSIZE` (rule R241, decision D31). -/
def causeSendOversize : Nat := 1

/-- The cause code the block shows: 0 is no fault (rule R241, decision D31). -/
def State.causeCode (s : State) : Nat :=
  if s.fault then causeSendOversize else 0

/-- The host's read port onto `rx_buf` at its `reading`-th use (decision D6): a cell of the reported frame, until the next
poll is issued, gives the byte stored there; any other cell gives a free value (rule R87, decision D29, U2, U3). -/
def State.bufData (s : State) (reading index : Nat) : Byte :=
  if index < s.frameLen then (s.rx.buf.read index).getD (Config.freeCell reading index)
  else Config.freeCell reading index

end Sys2Proof.Machine
end

