-- ==== Sys2Proof/Machine/Operands.lean ====
section
/-! DEFINITION. The operands of a host command as the block sees them (rules R103, R110, R160, R192) and the wire image of
a frame (rules R101, R102). -/

namespace Sys2Proof.Machine

/-- The command at the port: the oldest one presented and not finished, or the idle value (rules R223, R225). -/
def State.cmd (s : State) : Command :=
  s.cmds.headD Command.idle

/-- `length`: an unsigned number of `LENW` bits (rule R160). -/
def Command.lengthOf (cfg : Config) (c : Command) : Nat :=
  c.length % 2 ^ cfg.lenw

/-- `capacity` of a stream poll: an unsigned number of `CAPW` bits (rules R8, R192). -/
def Command.capacityOf (cfg : Config) (c : Command) : Nat :=
  c.capacity % 2 ^ cfg.capw

/-- The length byte of a frame: `length[7:0]` (rules R103, R161). -/
def lengthByte (n : Nat) : Byte :=
  BitVec.ofNat 8 n

/-- A frame on the wire (rule R101): `FF 55 L payload TERM`, the payload's bytes unchanged and in order (rule R104). -/
def wireFrame (term payload : List Byte) : List Byte :=
  [syncByte1, syncByte2, lengthByte payload.length] ++ payload ++ term

/-- What a `send` of these bytes puts on the wire, in order: a frame, or in stream mode the payload verbatim (rules R101,
R102, R161, R162). -/
def sendImage (mode : Mode) (term payload : List Byte) : List Byte :=
  match mode with
  | .packet => wireFrame term payload
  | .stream => payload

end Sys2Proof.Machine
end

