-- ==== Sys2Proof/Machine/Ops.lean ====
section
/-! DEFINITION. The named operations the meanings are made of: the receive source, the transmit sink, the startup
registers, the receiver's registers, the end of a command, the acceptance of a command (rule R226), taking the one
exception (rule R247) and reset, the only return from it (rules R248, R280). -/

namespace Sys2Proof.Machine

/-- `RxPop()` where the value is thrown away (rules R143, R146): the oldest byte is gone and `DRAINED` counts it (rule
R44). With no byte waiting `RxPop` is not defined (rule R15, U14). -/
def drainByte (s : State) (next : State → State) : Host.Outcome State Fault Refusal :=
  match s.rxq with
  | [] => .refused .noByte
  | _ :: q => .next (next { s with rxq := q, drained := s.drained + 1 })

/-- Entering a startup state: the state and the clock reading at its entry (rules R31, R32). -/
def State.enterSu (s : State) (st : SuState) : State :=
  { s with suState := st, suTEntry := s.now }

/-- `TxPush` of each byte in order: the sink takes all of them (rules R15, R73). -/
def State.emit (s : State) (bytes : List Byte) : State :=
  { s with txh := s.txh ++ bytes, wire := s.wire ++ bytes }

/-- Writing the receiver's registers. -/
def State.setRx (s : State) (r : Rx) : State :=
  { s with rx := r }

/-- The bytes waiting become `q`. -/
def State.setRxq (s : State) (q : List Byte) : State :=
  { s with rxq := q }

/-- The command at the port ends with this outcome and the next one presented comes to the port (rule R225). -/
def State.finish (s : State) (o : CmdOutcome) : State :=
  { s with outcome := some o, cmds := s.cmds.tail }

/-- A poll is issued: from here on the host may no longer rely on the frame reported before (rule R87). -/
def State.releaseFrame (s : State) : State :=
  { s with frameLen := 0 }

/-- A completed frame is reported: the poll ends with `N = rx_cursor`, source the one peer (rules R189, R191, R193, R198),
and its cells are the host's to read (rule R87). -/
def State.reportFrame (s : State) : State :=
  State.finish { s with frameLen := s.rx.cursor.toNat } (.bytesReceived s.rx.cursor.toNat .peer)

/-- TAKING THE EXCEPTION `Fatal(SEND_OVERSIZE)` (rules R241, R247): `fault <- 1` and the command ends in the outcome
`fault` with its cause code. Nothing is saved, no byte is emitted, nothing else changes. -/
def State.raiseFatal (s : State) : State :=
  State.finish { s with fault := true } (.fatal causeSendOversize)

/-- Which clause of rule R226 turns a command away. -/
def State.whyTurnedAway (s : State) : TurnedAway :=
  if s.fault then .faulted else .notOperational

/-- Acceptance (rule R226): a command is executed only when `ready == 1`; otherwise it is not accepted and nothing happens
but its outcome `refused` (log 6). -/
def whenReady (s : State) (body : Host.Outcome State Fault Refusal) : Host.Outcome State Fault Refusal :=
  if s.ready then body else .next (s.finish (.refused s.whyTurnedAway))

/-- The command at the port is a `send` that goes out: accepted (rule R226), `length` within `MTU` (rule R163) and a payload
to read (U15). -/
def State.sending (s : State) : Bool :=
  s.ready && decide (s.cmd.op = .send) && decide (s.cmd.lengthOf s.cfg ≤ s.cfg.mtu) &&
    decide (s.cmd.lengthOf s.cfg ≤ s.cmd.payload.length)

/-- What reset leaves on the wire of the `send` it cuts off (rule R281): its bytes in order up to the point reached, which the
environment names (`State.cut`, log 29). -/
def State.cutOff (s : State) : List Byte :=
  if s.sending then
    (sendImage s.cfg.mode s.cfg.term (s.cmd.payload.take (s.cmd.lengthOf s.cfg))).take s.cut
  else []

/-- RESET, the only way out of the fault (rules R46, R248, R280, R281): every register at its reset value, `su_t_entry` the
clock, no cell of the buffer with a value, the transmit history and the drained count cleared, whatever was in progress
aborted: a `send` is cut off and the bytes already pushed stay on the wire. The bytes waiting stay
(rule R281), and so does the clock; that the caller's buffer stays is the model's choice (log 21).
DESIGN CHOICE (log 31), unsafe: a stream poll at the port, or a packet poll taken whole, has not begun, so the abort leaves
RXQ and the caller's buffer as they were. -/
def State.applyReset (s : State) : State :=
  { s with
    suState := .waitInput
    suTEntry := s.now
    rx := Rx.reset
    fault := false
    txh := []
    wire := s.wire ++ s.cutOff
    drained := 0
    cmds := []
    outcome := none
    frameLen := 0 }

/-- A receiver transition that may write the buffer: its registers, or the fault of an index the buffer does not have
(rule R77, log 20). -/
def storeRx (r : Option Rx) (next : Rx → State) : Host.Outcome State Fault Refusal :=
  match r with
  | some q => .next (next q)
  | none => .fault .rxBufIndex

/-- `send` in either mode (rules R161 to R164): the length is tested before anything is emitted; then the bytes go out and
the result is `length`. The first `length` bytes of the payload are read (rule R160); with fewer there the spec gives the
command no meaning (U15, log 9). -/
def sendBytes (s : State) (mode : Mode) : Host.Outcome State Fault Refusal :=
  let n := s.cmd.lengthOf s.cfg
  if s.cfg.mtu < n then .next s.raiseFatal
  else if s.cmd.payload.length < n then .refused .payloadShort
  else .next ((s.emit (sendImage mode s.cfg.term (s.cmd.payload.take n))).finish (.bytesSent n))

end Sys2Proof.Machine
end

