-- ==== Sys2Proof/Machine/Receive.lean ====
section
/-! DEFINITION. The receive path of the Frame Codec: the eight transitions as instructions (rules R182 to R189; the byte has
been popped and is handed in, rule R181) and `poll_receive` in its two modes (rules R191, R192). -/

namespace Sys2Proof.Machine

/-- `RX.SYNC1` (rule R182). -/
def execRxSync1 (s : State) : Host.Outcome State Fault Refusal :=
  .next (s.setRx s.rx.sync1)

/-- `RX.SKIP` (rule R183). -/
def execRxSkip (s : State) : Host.Outcome State Fault Refusal :=
  .next (s.setRx s.rx.skip)

/-- `RX.SYNC2` (rule R184). -/
def execRxSync2 (s : State) : Host.Outcome State Fault Refusal :=
  .next (s.setRx s.rx.sync2)

/-- `RX.RESYNC` (rule R185). -/
def execRxResync (s : State) : Host.Outcome State Fault Refusal :=
  .next (s.setRx s.rx.resync)

/-- `RX.LEN` (rule R186). -/
def execRxLen (l : Byte) (s : State) : Host.Outcome State Fault Refusal :=
  .next (s.setRx (s.rx.len l))

/-- `RX.BADLEN` (rule R187). -/
def execRxBadlen (s : State) : Host.Outcome State Fault Refusal :=
  .next (s.setRx s.rx.badlen)

/-- `RX.DATA` (rule R188). -/
def execRxData (b : Byte) (s : State) : Host.Outcome State Fault Refusal :=
  storeRx (s.rx.data s.cfg.mtu b) fun r => s.setRx r

/-- `RX.LAST` (rule R189): `done`, so the enclosing poll reports the frame. -/
def execRxLast (b : Byte) (s : State) : Host.Outcome State Fault Refusal :=
  storeRx (s.rx.last s.cfg.mtu b) fun r => (s.setRx r).reportFrame

/-- `POLL.P` (rule R191), whole over the bytes waiting (rule R84): it stops at the byte that completes a frame and reports
it, or consumes every byte and returns 0. A `capacity` below `MTU` breaks the host's side of the contract, and the model
refuses the command (rules R199, R226 c, U10, log 8). DESIGN CHOICE (log 27), unsafe: a poll that is not accepted is not the
next poll of rule R87, so the frame reported before stays the host's to read. -/
def execPollP (s : State) : Host.Outcome State Fault Refusal :=
  whenReady s <|
    if s.cmd.capacity < s.cfg.mtu then .refused .capacityShort
    else match s.rx.poll s.cfg.mtu s.rxq with
    | none => .fault .rxBufIndex
    | some (r, true, q) => .next (((s.releaseFrame.setRxq q).setRx r).reportFrame)
    | some (r, false, q) => .next (((s.releaseFrame.setRxq q).setRx r).finish (.bytesReceived 0 .peer))

/-- `POLL.S` (rule R192): the bytes waiting, at most `capacity` of them, are copied into the caller's buffer from index 0;
no framing is attempted. DESIGN CHOICE (log 28), safe: of the two readings rule R84 admits it is always the atomic one, over
the bytes waiting at one instant, whatever `pollGrain` says. DESIGN CHOICE (log 31), unsafe: reset finds it wholly done or not
begun, never with some bytes popped. -/
def execPollS (s : State) : Host.Outcome State Fault Refusal :=
  whenReady s <|
    let taken := s.rxq.take (s.cmd.capacityOf s.cfg)
    .next (State.finish
      { s.releaseFrame with
        rxq := s.rxq.drop (s.cmd.capacityOf s.cfg)
        hostBuf := s.hostBuf.writeAll 0 taken }
      (.bytesReceived taken.length .peer))

end Sys2Proof.Machine
end

