-- ==== Sys2Proof/Machine/Send.lean ====
section
/-! DEFINITION. The send path of the Frame Codec (rules R160 to R167). `destination` is not read (rule R167). -/

namespace Sys2Proof.Machine

/-- `SEND.P` (rule R161): header, payload, terminator. -/
def execSendP (s : State) : Host.Outcome State Fault Refusal :=
  whenReady s (sendBytes s .packet)

/-- `SEND.S` (rule R162): the payload bytes verbatim. -/
def execSendS (s : State) : Host.Outcome State Fault Refusal :=
  whenReady s (sendBytes s .stream)

end Sys2Proof.Machine
end

