-- ==== Sys2Proof/Machine/Startup.lean ====
section
/-! DEFINITION. The Startup Drain Controller: the seven transitions (rules R142 to R148) and the combined evaluation (rule
R150). -/

namespace Sys2Proof.Machine

/-- `SU.EXPIRE_WAIT` (rule R142): a byte available at the same evaluation is left (rule R149). -/
def execSuExpireWait (s : State) : Host.Outcome State Fault Refusal :=
  .next (s.enterSu .operational)

/-- `SU.FIRST` (rule R143). -/
def execSuFirst (s : State) : Host.Outcome State Fault Refusal :=
  drainByte s fun t => t.enterSu .drainInput

/-- `SU.HOLD_WAIT` (rule R144): the outcome *hold*, nothing changes. -/
def execSuHoldWait (s : State) : Host.Outcome State Fault Refusal :=
  .next s

/-- `SU.EXPIRE_DRAIN` (rule R145). -/
def execSuExpireDrain (s : State) : Host.Outcome State Fault Refusal :=
  .next (s.enterSu .operational)

/-- `SU.DRAIN` (rule R146): the quiet period starts again. -/
def execSuDrain (s : State) : Host.Outcome State Fault Refusal :=
  drainByte s fun t => t.enterSu .drainInput

/-- `SU.HOLD_DRAIN` (rule R147): the outcome *hold*, nothing changes. -/
def execSuHoldDrain (s : State) : Host.Outcome State Fault Refusal :=
  .next s

/-- `SU.DONE` (rule R148): the identity. -/
def execSuDone (s : State) : Host.Outcome State Fault Refusal :=
  .next s

/-- `SuStep` (rule R150): one evaluation of the controller in one piece. The machine runs the seven transitions; this is
the spec's other description of them, for statements that the two agree. -/
def suStep (s : State) : State :=
  if s.suState = .operational then s
  else
    let t : Nat := if s.suState = .waitInput then tWait else tDrain
    if (t : Int) ≤ clockDiff s.cfg.cw s.now s.suTEntry then
      { s with suState := .operational, suTEntry := s.now }
    else
      match s.rxq with
      | _ :: q => { s with rxq := q, drained := s.drained + 1, suState := .drainInput, suTEntry := s.now }
      | [] => s

end Sys2Proof.Machine
end

