-- ==== Sys2Proof/Machine/Transport.lean ====
section
/-! DEFINITION. The rest of the operation surface: `NOP` (rule R223), `WAIT` (rule R222), `CREATE` (rule R221). -/

namespace Sys2Proof.Machine

/-- `NOP` (rule R223): accepted in every state, no effect, no result; the port is free for the next command. -/
def execNop (s : State) : Host.Outcome State Fault Refusal :=
  .next { s with cmds := s.cmds.tail }

/-- `WAIT` (rule R222): the availability at the moment of the call; `timeout` is not used, nothing is consumed. -/
def execWait (s : State) : Host.Outcome State Fault Refusal :=
  whenReady s (.next (s.finish (.hasData s.rxAvail)))

/-- `CREATE` (rules R221, R280): the reset itself. The startup evaluations that follow until `Operational` are the steps
after it, each at its own clock reading (log 10). -/
def execCreate (s : State) : Host.Outcome State Fault Refusal :=
  .next s.applyReset

end Sys2Proof.Machine
end

