-- ==== Sys2Proof/Machine/Dispatch.lean ====
section
/-! DEFINITION. One arm per instruction. -/

namespace Sys2Proof.Machine

open Sys2Proof

def exec (i : Instr) (s : State) : Host.Outcome State Fault Refusal :=
  match i with
  -- the receiver, format K
  | .rxSync1 => Sys2Proof.Machine.execRxSync1 s
  | .rxSkip _ => Sys2Proof.Machine.execRxSkip s
  | .rxSync2 => Sys2Proof.Machine.execRxSync2 s
  | .rxResync _ => Sys2Proof.Machine.execRxResync s
  | .rxLen l => Sys2Proof.Machine.execRxLen l s
  | .rxBadlen _ => Sys2Proof.Machine.execRxBadlen s
  | .rxData b => Sys2Proof.Machine.execRxData b s
  | .rxLast b => Sys2Proof.Machine.execRxLast b s
  -- the startup controller, format S
  | .suExpireWait => Sys2Proof.Machine.execSuExpireWait s
  | .suFirst => Sys2Proof.Machine.execSuFirst s
  | .suHoldWait => Sys2Proof.Machine.execSuHoldWait s
  | .suExpireDrain => Sys2Proof.Machine.execSuExpireDrain s
  | .suDrain => Sys2Proof.Machine.execSuDrain s
  | .suHoldDrain => Sys2Proof.Machine.execSuHoldDrain s
  | .suDone => Sys2Proof.Machine.execSuDone s
  -- host commands, format H
  | .nop => Sys2Proof.Machine.execNop s
  | .sendP => Sys2Proof.Machine.execSendP s
  | .sendS => Sys2Proof.Machine.execSendS s
  | .pollP => Sys2Proof.Machine.execPollP s
  | .pollS => Sys2Proof.Machine.execPollS s
  | .wait => Sys2Proof.Machine.execWait s
  -- reset, format RST
  | .create => Sys2Proof.Machine.execCreate s

end Sys2Proof.Machine
end

