-- ==== Sys2Proof/Machine/Fetch.lean ====
section
/-! DEFINITION. What comes before an instruction: the ports are sampled (decisions D2 to D6, log 1), then the decode key is
formed from the state and the inputs (rules R106, R108, R110, R112). Also the placing of a bare table word for the host's
probe (log 12, 13). -/

namespace Sys2Proof.Machine

/-- What the ports show when the schedule is empty (log 1): the clock stands, the line is silent, no reset, no command. -/
def State.quietInput (s : State) : Input :=
  { now := s.clock, line := [], rst := false, cmd := none, cut := s.cut }

/-- The ports take these values: the clock moves, the line's bytes join the tail of `RXQ` (rules R44 a, R86), a command
presented waits its turn (rule R225), the point a cut-off send had reached is named (rule R281), and the release of reset samples the clock into `su_t_entry` (rules R46, R280). -/
def State.arrive (s : State) (i : Input) (rest : List Input) : State :=
  let t : State :=
    { s with
      clock := i.now
      rxq := s.rxq ++ i.line
      rst := i.rst
      cut := i.cut
      cmds := s.cmds ++ i.cmd.toList
      inputs := rest }
  if s.rst && !i.rst then { t with suTEntry := t.now } else t

/-- One sample of the ports, at every evaluation. -/
def State.sample (s : State) : State :=
  match s.inputs with
  | [] => s.arrive s.quietInput []
  | i :: rest => s.arrive i rest

/-- The command at the port is a packet poll, accepted (rule R226) with the capacity it must have (rule R199), and taken one
byte a step (rule R84). A stream poll is never taken so (log 28). -/
def State.pollingByBytes (s : State) : Bool :=
  decide (s.pollGrain = .perByte) && decide (s.cfg.mode = .packet) && decide (s.cmd.op = .poll) && s.ready &&
    decide (s.cfg.mtu ≤ s.cmd.capacity)

/-- The decode key of the coming instruction and the state it is executed in. Reset comes first (rule R280). A command at
the port gives an H key (rule R110); but a packet poll taken per byte, while a byte is waiting, pops it and gives the K key
of that byte (rules R106, R181, R191). With no command presented the startup controller is evaluated (rules R108, R150). -/
def State.fetch (s : State) : State × Key :=
  if s.rst then (s, .rst 1#1)
  else
    match s.cmds with
    | [] => (s, .s (keyS s.suState s.expired s.rxAvail))
    | c :: _ =>
      if s.pollingByBytes then
        match s.rxq with
        | b :: q => (s.releaseFrame.setRxq q, .k (keyK s.rx.state b))
        | [] => (s, .h (keyH s.cfg.mode c.op))
      else (s, .h (keyH s.cfg.mode c.op))

/-- For the host's probe (log 12, 13): `s` with what the next evaluation needs to form the key this table word stands for.
For a K key: `Operational`, packet mode, a poll at the port with capacity `MTU` taken per byte, the receiver in the key's state (with
`rx_remaining` 2 in `ReadingPayload`) and the key's byte alone in `RXQ`. For an S key: the key's startup state, no command,
a byte waiting or none, and an entry clock and reading that make `expired` the key's bit. For an H key: `Operational`, the
key's mode and command with operands 0 but the capacity, `MTU`. For RST: the reset input. The next sample shows exactly this and nothing more. -/
def State.placeKey (s : State) (key : Key) : State :=
  let base : State := { s with rst := false, fault := false, suState := .operational }
  let quiet : Input := s.quietInput
  match key with
  | .k bits =>
    let st := RxState.ofCode (bits.extractLsb' 8 2)
    { base with
      cfg := { s.cfg with mode := .packet }
      pollGrain := .perByte
      cmds := [{ Command.idle with op := .poll, capacity := s.cfg.mtu }]
      rx := { s.rx with state := st, remaining := if st = .readingPayload then probeRemaining else s.rx.remaining }
      rxq := [bits.extractLsb' 0 8]
      inputs := quiet :: s.inputs }
  | .s bits =>
    match SuState.ofCode (bits.extractLsb' 2 2) with
    | none => s
    | some st =>
      { s with
        rst := false
        suState := st
        suTEntry := 0
        cmds := []
        rxq := if bits.extractLsb' 0 1 = 1#1 then [0#8] else []
        inputs := { quiet with now := if bits.extractLsb' 1 1 = 1#1 then st.timeout.getD 0 else 0 } :: s.inputs }
  | .h bits =>
    { base with
      cfg := { s.cfg with mode := Mode.ofCode (bits.extractLsb' 2 1) }
      pollGrain := .whole
      cmds := [{ Command.idle with op := CmdOp.ofCode (bits.extractLsb' 0 2), capacity := s.cfg.mtu }]
      inputs := quiet :: s.inputs }
  | .rst bit =>
    { s with inputs := { quiet with rst := decide (bit = 1#1) } :: s.inputs }

/-- The host's probe for a bare table word (log 12). -/
def State.placeTableWord (s : State) (nbits w : Nat) : State :=
  s.placeKey (keyOfTableWord nbits w)

end Sys2Proof.Machine
end

