-- ==== Sys2Proof/Machine/Step.lean ====
section
/-! DEFINITION. One evaluation of the block: sample the ports, form the key, decode it, execute the instruction. -/

namespace Sys2Proof.Machine

/-- One step of the machine (rule R18: one startup evaluation, one received byte or one host command). -/
def step (s : State) : Host.Outcome State Fault Refusal :=
  let f := s.sample.fetch
  match decode f.1.cfg.mtu f.1.rx.remaining f.2 with
  | .ok i => exec i f.1
  | .error e => .refused (.reservedKey e)

/-- For the host: `s` with the instruction a bare table word stands for placed so that the very next step runs it
(log 12, 13). -/
def State.withFetchWord (s : State) (nbits w : Nat) : State :=
  s.placeTableWord nbits w

end Sys2Proof.Machine
end

