-- ==== Sys2Proof/Safety.lean ====
section
/-! DEFINITION. The terms statements are made in: the invariant of the machine (rule R41 and the model's own fields), a good
state (rule R16), and the schedules of the environment the startup properties speak of (rules R151, R301). -/

namespace Sys2Proof.Safety

open Sys2Proof Sys2Proof.Machine

/-- The receiver's part of rule R41: (a) and (c) the cursor and what is still to come add up to the length accepted and stay
within `MTU`; (b) and (d) a count
exactly in `ReadingPayload`; the buffer in canonical form, inside its `MTU` cells, and with a value in every cell below the
cursor. -/
structure RxInv (mtu : Nat) (r : Rx) : Prop where
  /-- (c): `rx_cursor + rx_remaining == L`, the length byte last accepted by `RX.LEN`. The rule says it of `ReadingPayload`; it
  holds in every state, since outside `rx_remaining` is 0 and the cursor stays where the frame ended. -/
  length : r.cursor.toNat + r.remaining.toNat = r.accepted.toNat
  /-- (a), (c): the write index is inside the buffer and `rx_cursor + rx_remaining <= MTU`. -/
  bound : r.cursor.toNat + r.remaining.toNat ≤ mtu
  /-- (b), (d): `rx_remaining >= 1` exactly in `ReadingPayload`. -/
  counting : r.state = .readingPayload ↔ 1 ≤ r.remaining.toNat
  /-- The buffer is in canonical form. -/
  canonical : r.buf.wf = true
  /-- The buffer has `MTU` cells (rule R36). -/
  inside : r.buf.below mtu = true
  /-- Every cell below the cursor was written since the last `RX.LEN` (rule R46: no cell is read before it is written). -/
  written : ∀ i, i < r.cursor.toNat → (r.buf.read i).isSome = true

/-- The invariant of the machine. -/
structure Inv (s : State) : Prop where
  /-- The configuration is one of this hardware (U17). -/
  config : s.cfg.wf = true
  /-- The receiver's part. -/
  receiver : RxInv s.cfg.mtu s.rx
  /-- Rule R41 (f): before `Operational` the receiver is as at reset and nothing has faulted. -/
  startup : s.suState ≠ .operational → s.rx = Rx.reset ∧ s.fault = false
  /-- In stream mode no operation touches the receiver (rules R30, R192). -/
  stream : s.cfg.mode = .stream → s.rx = Rx.reset
  /-- `su_t_entry` has `CW` bits (rule R32). -/
  entry : s.suTEntry < 2 ^ s.cfg.cw
  /-- The caller's buffer is in canonical form. -/
  hostMemory : s.hostBuf.wf = true
  /-- While a reported frame is the host's to read the receiver is in `Idle` with `rx_cursor == N` (rule R87). -/
  held : s.frameLen ≠ 0 → s.rx.state = .idle ∧ s.frameLen = s.rx.cursor.toNat
  /-- What was emitted since reset is the end of what was ever pushed (rules R44 b, R281). -/
  history : s.txh <:+ s.wire
  /-- While reset is applied the startup machine is in `WaitInput` (rule R280). -/
  inReset : s.rst = true → s.suState = .waitInput

/-- A good state: not the fault state (rule R16, decision D15). -/
def Good (s : State) : Prop :=
  s.fault = false

/-- The length of the run of `0xFF` bytes these bytes end in (rule R197 b). -/
def trailingSyncs (bytes : List Byte) : Nat :=
  (bytes.reverse.takeWhile fun b => decide (b = syncByte1)).length

/-- An evaluation at this clock reading with a silent line, no reset and no command. -/
def silentAt (t : Nat) : Input :=
  { now := t, line := [], rst := false, cmd := none, cut := 0 }

/-- An evaluation at this clock reading at which the line delivers these bytes; no reset, no command. -/
def bytesAt (t : Nat) (bytes : List Byte) : Input :=
  { now := t, line := bytes, rst := false, cmd := none, cut := 0 }

/-- `n` evaluations on a silent line, one every millisecond from reading `t`. -/
def silentFor (t n : Nat) : List Input :=
  (List.range n).map fun i => silentAt (t + i)

/-- The state a run of `k` steps answers, where it answers one. -/
def After (k : Nat) (s : State) (p : State → Prop) : Prop :=
  ∃ t, Host.Core.run core k s = .next t ∧ p t

end Sys2Proof.Safety
end

