-- ==== Sys2Proof/Certificates/Slice0/Obligations.lean ====
section
/-! DEFINITION. The statements for the provers. Each says in its docstring which rule of the spec it formalises; where a
clause rests on a decision the spec or the model made, the docstring names it. An answer written as a record update says
that every field not named in it is unchanged. -/

open Sys2Proof Sys2Proof.Machine Sys2Proof.Safety

/-! ## Reset and the shape of a step -/

/-- Rule R46, for every configuration, clock reading and bytes already delivered, which the rule leaves arbitrary: what
reset leaves. `Idle`, the zeros and `fault = 0` are the spec's own decision D11; that `rx_buf` has no value is U2. The
last clause says what the model chose for the host's fixed `State.reset`: log 2 and log 3. -/
def Obligations.ResetLeavesTheSpecsValues : Prop :=
  (∀ (cfg : Config) (clock : Nat) (q : List Byte),
    let s := State.resetWith cfg clock q
    s.cfg = cfg ∧ s.suState = .waitInput ∧ s.suTEntry = s.now ∧
    s.rx.state = .idle ∧ s.rx.remaining = 0#8 ∧ s.rx.cursor = 0#8 ∧ (∀ i, s.rx.buf.read i = none) ∧
    s.fault = false ∧ s.rxq = q ∧ s.txh = [] ∧ s.wire = [] ∧ s.drained = 0 ∧ s.ready = false ∧ s.causeCode = 0) ∧
  State.reset = State.resetWith ⟨.packet, 8, [], 32, 16, 16⟩ 0 []

/-- A step samples the ports, forms the key of the coming instruction and runs what the key decodes to, in the state the
fetch leaves. The key (rules R106, R108, R110, R112): with reset applied the reset key; with no command presented the
startup key `{su_state, expired, avail}`; with a command at the port the key `{MODE, cmd_op}` of the oldest one, but,
where that is an accepted packet poll taken byte by byte (the model's reading, log 7) with a byte waiting, the receiver
key `{rx_state, byte}` of the byte at the head of `RXQ`, which is popped, and the frame reported before is given up.
Nothing else comes before the instruction. That a presented command comes before a startup evaluation is log 14; that the
startup key's `expired` bit is 0 in `Operational`, where rule R141 defines none, is log 15. -/
def Obligations.StepRunsTheDecodedInstruction : Prop :=
  (∀ (s : State) (i : Instr), decode s.cfg.mtu s.rx.remaining s.sample.fetch.2 = .ok i →
    step s = exec i s.sample.fetch.1) ∧
  (∀ s : State, s.sample.rst = true → s.sample.fetch = (s.sample, .rst 1#1)) ∧
  (∀ s : State, s.sample.rst = false → s.sample.cmds = [] →
    let e : Bool :=
      decide (s.suState = .waitInput ∧ 5000 ≤ clockDiff s.cfg.cw s.sample.now s.sample.suTEntry ∨
        s.suState = .drainInput ∧ 1000 ≤ clockDiff s.cfg.cw s.sample.now s.sample.suTEntry)
    let a : Bool := decide (s.sample.rxq ≠ [])
    s.sample.fetch = (s.sample, .s (s.suState.code ++ BitVec.ofBool e ++ BitVec.ofBool a))) ∧
  (∀ (s : State) (c : Command) (cs : List Command), s.sample.rst = false → s.sample.cmds = c :: cs →
    let byBytes : Prop :=
      s.pollGrain = .perByte ∧ s.cfg.mode = .packet ∧ c.op = .poll ∧ s.ready = true ∧ s.cfg.mtu ≤ c.capacity
    (∀ b q, byBytes → s.sample.rxq = b :: q →
      s.sample.fetch = ({ s.sample with rxq := q, frameLen := 0 }, .k (s.rx.state.code ++ b))) ∧
    (¬ byBytes ∨ s.sample.rxq = [] → s.sample.fetch = (s.sample, .h (s.cfg.mode.code ++ c.op.code))))

/-- The ports: the clock moves, the line's bytes join the tail of `RXQ` (rules R44, R86), the release of reset samples the
clock into `su_t_entry` (rules R46, R280); nothing else changes but the ports' own values. That a command presented waits
behind those presented before is the spec's decision D33 (43_transport_ops.md section 2); that the line of waiting commands
has no bound, and is sampled while a command runs, is the model's (log 24, unsafe), as are the field `cut` (log 29) and that
with an empty schedule the line is silent and the clock stands (log 1). -/
def Obligations.SampleTakesThePorts : Prop :=
  (∀ (s : State) (i : Input) (rest : List Input), s.inputs = i :: rest →
    s.sample =
      { s with
        clock := i.now
        rxq := s.rxq ++ i.line
        rst := i.rst
        cut := i.cut
        cmds := s.cmds ++ i.cmd.toList
        inputs := rest
        suTEntry := if s.rst = true ∧ i.rst = false then i.now % 2 ^ s.cfg.cw else s.suTEntry }) ∧
  (∀ s : State, s.inputs = [] →
    s.sample = { s with rst := false, suTEntry := if s.rst = true then s.now else s.suTEntry })

/-- Words written out from the patterns of rules R107, R109, R111, R112 and vector V43 decode to the instruction they stand
for. -/
def Obligations.WrittenOutKeysDecode : Prop :=
  decode 8 0#8 (.k 0x0FF#10) = .ok .rxSync1 ∧
  decode 8 0#8 (.k 0x0FE#10) = .ok (.rxSkip 0xFE#8) ∧
  decode 8 0#8 (.k 0x155#10) = .ok .rxSync2 ∧
  decode 8 0#8 (.k 0x1FF#10) = .ok (.rxResync 0xFF#8) ∧
  decode 8 0#8 (.k 0x208#10) = .ok (.rxLen 8#8) ∧
  decode 8 0#8 (.k 0x209#10) = .ok (.rxBadlen 9#8) ∧
  decode 255 0#8 (.k 0x2FF#10) = .ok (.rxLen 0xFF#8) ∧
  decode 8 2#8 (.k 0x3FF#10) = .ok (.rxData 0xFF#8) ∧
  decode 8 1#8 (.k 0x3FF#10) = .ok (.rxLast 0xFF#8) ∧
  decode 8 0#8 (.s 0b0011#4) = .ok .suExpireWait ∧
  decode 8 0#8 (.s 0b0001#4) = .ok .suFirst ∧
  decode 8 0#8 (.s 0b0101#4) = .ok .suDrain ∧
  decode 8 0#8 (.s 0b1011#4) = .ok .suDone ∧
  decode 8 0#8 (.h 0b100#3) = .ok .nop ∧
  decode 8 0#8 (.h 0b101#3) = .ok .sendS ∧
  decode 8 0#8 (.h 0b010#3) = .ok .pollP ∧
  decode 8 0#8 (.h 0b111#3) = .ok .wait ∧
  decode 8 0#8 (.rst 1#1) = .ok .create

/-! ## Encodings -/

/-- Decode and encode agree: every well-formed instruction's key decodes to it, with every operand at every value, for
every `MTU` and `rx_remaining` (rules R106 to R112). -/
def Obligations.DecodeOfEncodeIsTheInstruction : Prop :=
  ∀ (mtu : Nat) (remaining : Byte) (i : Instr), i.wf mtu remaining = true →
    decode mtu remaining (encode i) = .ok i

/-- What a key decodes to is well formed, meets the `match` and `mask` of its row of opcode_table.json (rule R119), and
encodes back to the key in every bit its row examines. -/
def Obligations.DecodedKeyMeetsItsTableRow : Prop :=
  ∀ (mtu : Nat) (remaining : Byte) (key : Key) (i : Instr), decode mtu remaining key = .ok i →
    i.wf mtu remaining = true ∧ (tableRow i).selects key = true ∧
    (encode i).width = key.width ∧ (encode i).toNat &&& (tableRow i).mask = key.toNat &&& (tableRow i).mask

/-- The only keys without a row: the startup state code `0b11` (rule R113 a, U5) and a reset input at 0 (rule R112). -/
def Obligations.OnlyTheReservedKeysAreRejected : Prop :=
  ∀ (mtu : Nat) (remaining : Byte) (key : Key),
    (∃ e, decode mtu remaining key = .error e) ↔
      (∃ bits : BitVec 4, key = .s bits ∧ 12 ≤ bits.toNat) ∨ key = .rst 0#1

/-! ## The receiver's rows -/

/-- The frame sync detector, row by row: `RX.SYNC1` (R182), `RX.SKIP` (R183), `RX.SYNC2` (R184), `RX.RESYNC` (R185): which
byte selects each in its state, and that the row completes with nothing changed but `rx_state`. -/
def Obligations.HeaderRowsMoveTheReceiver : Prop :=
  (∀ (mtu : Nat) (remaining b : Byte),
    decode mtu remaining (.k (0b00#2 ++ b)) = .ok (if b = 0xFF#8 then .rxSync1 else .rxSkip b) ∧
    decode mtu remaining (.k (0b01#2 ++ b)) = .ok (if b = 0x55#8 then .rxSync2 else .rxResync b)) ∧
  (∀ (s : State) (b : Byte),
    exec .rxSync1 s = .next { s with rx := { s.rx with state := .sawFirstSync } } ∧
    exec (.rxSkip b) s = .next { s with rx := { s.rx with state := .idle } } ∧
    exec .rxSync2 s = .next { s with rx := { s.rx with state := .sawSecondSync } } ∧
    exec (.rxResync b) s = .next { s with rx := { s.rx with state := .idle } })

/-- The length check (42_receive.md section 3): `RX.LEN` (R186) exactly for `1 <= l <= MTU`, `RX.BADLEN` (R187) for every
other byte; what each writes, and nothing else changes. That `RX.LEN` also writes `accepted` is the model's own: its ghost
for the `L` of rule R41 (c) (log 30). -/
def Obligations.LengthRowsCheckTheLength : Prop :=
  (∀ (mtu : Nat) (remaining l : Byte),
    decode mtu remaining (.k (0b10#2 ++ l)) =
      .ok (if 1 ≤ l.toNat ∧ l.toNat ≤ mtu then .rxLen l else .rxBadlen l)) ∧
  (∀ (s : State) (l : Byte),
    exec (.rxLen l) s =
      .next { s with rx := { s.rx with state := .readingPayload, remaining := l, cursor := 0#8, accepted := l } } ∧
    exec (.rxBadlen l) s = .next { s with rx := { s.rx with state := .idle } })

/-- The payload recoverer: `RX.DATA` (R188) and `RX.LAST` (R189), with a write index inside the buffer. Which of the two
`rx_remaining` selects; the byte is stored at the cursor and every other cell reads as before; the registers move on;
`RX.LAST` reports the frame with its length, and nothing else changes. `frameLen` is the model's own ghost (log 16). -/
def Obligations.PayloadRowsStoreTheByte : Prop :=
  (∀ (mtu : Nat) (remaining b : Byte), 1 ≤ remaining.toNat →
    decode mtu remaining (.k (0b11#2 ++ b)) = .ok (if 1 < remaining.toNat then .rxData b else .rxLast b)) ∧
  (∀ (s : State) (b : Byte), s.rx.cursor.toNat < s.cfg.mtu →
    ∃ buf : Mem,
      (∀ a, buf.read a = if a = s.rx.cursor.toNat then some b else s.rx.buf.read a) ∧
      exec (.rxData b) s =
        .next { s with rx := ⟨.readingPayload, s.rx.remaining - 1, s.rx.cursor + 1, buf, s.rx.accepted⟩ } ∧
      exec (.rxLast b) s =
        .next { s with
          rx := ⟨.idle, 0#8, s.rx.cursor + 1, buf, s.rx.accepted⟩
          frameLen := (s.rx.cursor + 1).toNat
          outcome := some (.bytesReceived (s.rx.cursor + 1).toNat .peer)
          cmds := s.cmds.tail })

/-- A write index at or above `MTU` names no cell of the buffer and has no defined behaviour (20_memory.md, R77): the model
stops there with the fault `rxBufIndex` (log 20). `StepNeverFaults` says it does not happen. -/
def Obligations.PayloadRowsStopOutsideTheBuffer : Prop :=
  ∀ (s : State) (b : Byte), s.cfg.mtu ≤ s.rx.cursor.toNat →
    exec (.rxData b) s = .fault .rxBufIndex ∧ exec (.rxLast b) s = .fault .rxBufIndex

/-- Rule R190: while a packet poll is in progress byte by byte, the step at a waiting byte (sampling, key, decode table,
row) does to the receiver exactly what the one function `RxByte` does, and reports the frame where it says `done`. -/
def Obligations.ReceiverStepIsRxByte : Prop :=
  ∀ (s : State) (b : Byte) (q : List Byte) (r : Rx) (done : Bool),
    s.sample.rst = false → s.sample.cmds ≠ [] → s.sample.pollingByBytes = true → s.sample.rxq = b :: q →
    s.rx.byte s.cfg.mtu b = some (r, done) →
    step s = .next
      (if done then
        { s.sample with
          rxq := q
          rx := r
          frameLen := r.cursor.toNat
          outcome := some (.bytesReceived r.cursor.toNat .peer)
          cmds := s.sample.cmds.tail }
      else { s.sample with rxq := q, rx := r, frameLen := 0 })

/-! ## The startup controller -/

/-- The seven rows R142 to R148: which key selects each (an unexamined bit takes both values), and what each does: the two
expiries enter `Operational` and leave the bytes; `SU.FIRST` and `SU.DRAIN` consume exactly one byte and enter `DrainInput`;
both write the clock reading; the two holds and `SU.DONE` change nothing. -/
def Obligations.StartupRowsDrainTheLine : Prop :=
  (∀ (mtu : Nat) (remaining : Byte) (e a : BitVec 1),
    decode mtu remaining (.s (0b00#2 ++ 1#1 ++ a)) = .ok .suExpireWait ∧
    decode mtu remaining (.s (0b00#2 ++ 0#1 ++ 1#1)) = .ok .suFirst ∧
    decode mtu remaining (.s (0b00#2 ++ 0#1 ++ 0#1)) = .ok .suHoldWait ∧
    decode mtu remaining (.s (0b01#2 ++ 1#1 ++ a)) = .ok .suExpireDrain ∧
    decode mtu remaining (.s (0b01#2 ++ 0#1 ++ 1#1)) = .ok .suDrain ∧
    decode mtu remaining (.s (0b01#2 ++ 0#1 ++ 0#1)) = .ok .suHoldDrain ∧
    decode mtu remaining (.s (0b10#2 ++ e ++ a)) = .ok .suDone) ∧
  (∀ s : State,
    exec .suExpireWait s = .next { s with suState := .operational, suTEntry := s.now } ∧
    exec .suExpireDrain s = .next { s with suState := .operational, suTEntry := s.now } ∧
    exec .suHoldWait s = .next s ∧ exec .suHoldDrain s = .next s ∧ exec .suDone s = .next s ∧
    (s.fault = false → ({ s with suState := .operational, suTEntry := s.now } : State).ready = true)) ∧
  (∀ (s : State) (b : Byte) (q : List Byte), s.rxq = b :: q →
    let t : State := { s with rxq := q, drained := s.drained + 1, suState := .drainInput, suTEntry := s.now }
    exec .suFirst s = .next t ∧ exec .suDrain s = .next t)

/-- `SU.FIRST` and `SU.DRAIN` executed with no byte waiting, which their key excludes: `RxPop` is not defined there (U14),
and the model stops by name (log 19). -/
def Obligations.DrainingNothingIsRefused : Prop :=
  ∀ s : State, s.rxq = [] →
    exec .suFirst s = .refused .noByte ∧ exec .suDrain s = .refused .noByte

/-- Rule R150: with no command presented and no reset, a step (sampling, key, decode table, row) is one evaluation
`SuStep` of the controller, the function of the spec that says it in one piece. -/
def Obligations.StartupStepIsSuStep : Prop :=
  ∀ s : State, s.sample.rst = false → s.sample.cmds = [] → step s = .next (suStep s.sample)

/-- Rule R31: the startup state starts in `WaitInput`; it moves only `WaitInput` to `DrainInput`, `WaitInput` to
`Operational`, `DrainInput` to `DrainInput`, `DrainInput` to `Operational`, or stays; no step leaves `Operational` or
returns to `WaitInput` but reset, which always leads there. -/
def Obligations.StartupStateMovesOneWay : Prop :=
  (∀ (cfg : Config) (clock : Nat) (q : List Byte), (State.resetWith cfg clock q).suState = .waitInput) ∧
  (∀ s t : State, step s = .next t →
    (s.sample.rst = true → t.suState = .waitInput) ∧
    (s.sample.rst = false →
      (s.suState = .operational → t.suState = .operational) ∧
      (s.suState = .drainInput → t.suState = .drainInput ∨ t.suState = .operational) ∧
      (t.suState = .waitInput → s.suState = .waitInput)))

/-- Rule R141, laws (a) and (b): a reading taken `d` milliseconds after another differs from it by exactly `d`, across a
wrap of the clock too, as long as `d` is below half the clock's range; from half the range on the difference is negative
and no timeout is reached. -/
def Obligations.ElapsedTimeIsWrapSafe : Prop :=
  ∀ (cw t d : Nat), 1 ≤ cw → d < 2 ^ cw →
    clockDiff cw ((t + d) % 2 ^ cw) (t % 2 ^ cw) = if d < 2 ^ (cw - 1) then (d : Int) else (d : Int) - 2 ^ cw

/-- `Operational` is entered only through a timeout: from `WaitInput` with at least 5000 ms, from `DrainInput` with at
least 1000 ms since the state was entered, and the bytes waiting are left for the codec. -/
def Obligations.OperationalOnlyAfterTheTimeout : Prop :=
  ∀ s t : State, step s = .next t → s.suState ≠ .operational → t.suState = .operational →
    (s.suState = .waitInput → 5000 ≤ clockDiff s.cfg.cw s.sample.now s.sample.suTEntry) ∧
    (s.suState = .drainInput → 1000 ≤ clockDiff s.cfg.cw s.sample.now s.sample.suTEntry) ∧
    t.suTEntry = s.sample.now ∧ t.rxq = s.sample.rxq ∧ t.drained = s.drained

/-- Where the timeout has been reached and a byte is available at one evaluation, the timeout wins and the byte stays. The
spec's own choice, decision D8 (40_startup.md section 3a). -/
def Obligations.TimeoutBeatsTheByte : Prop :=
  ∀ s : State, s.sample.rst = false → s.sample.cmds = [] → s.sample.rxq ≠ [] →
    (s.suState = .waitInput ∧ 5000 ≤ clockDiff s.cfg.cw s.sample.now s.sample.suTEntry ∨
      s.suState = .drainInput ∧ 1000 ≤ clockDiff s.cfg.cw s.sample.now s.sample.suTEntry) →
    step s = .next { s.sample with suState := .operational, suTEntry := s.sample.now }

/-- The first transition after reset (70_reset_and_hazards.md, R282, an inference the spec marks as its own): at the release
of reset the elapsed time is 0, so the first evaluation is `SU.FIRST` if a byte is waiting and `SU.HOLD_WAIT` if not. -/
def Obligations.FirstTransitionAfterReset : Prop :=
  ∀ s : State, s.rst = true → s.suState = .waitInput → s.sample.rst = false → s.sample.cmds = [] →
    s.sample.suTEntry = s.sample.now ∧
    (s.sample.rxq = [] → step s = .next s.sample) ∧
    (∀ b q, s.sample.rxq = b :: q →
      step s = .next { s.sample with rxq := q, drained := s.drained + 1, suState := .drainInput })

/-- The source's startup timing with no input: from any reset, on a silent line evaluated every millisecond, `Operational`
is reached at exactly 5000 ms and not before, with zero bytes consumed, whatever the clock read at reset and however it
wraps. -/
def Obligations.SilentLineReachesOperationalAt5000 : Prop :=
  ∀ (cfg : Config) (t0 : Nat), cfg.wf = true →
    let s : State := { State.resetWith cfg t0 [] with inputs := silentFor t0 5001 }
    (∀ k, k ≤ 5000 → After k s fun t => t.suState = .waitInput ∧ t.ready = false) ∧
    After 5001 s fun t =>
      t.suState = .operational ∧ t.ready = true ∧ t.suTEntry = (t0 + 5000) % 2 ^ cfg.cw ∧ t.drained = 0 ∧ t.rxq = []

/-- The source's startup timing with one byte: a byte arriving `d` ms after reset, `d` below 5000, then silence:
`Operational` is reached at exactly `d + 1000` ms and not before, having consumed exactly one byte, whatever the byte. -/
def Obligations.OneByteThenSilenceReachesOperational : Prop :=
  ∀ (cfg : Config) (t0 d : Nat) (b : Byte), cfg.wf = true → d < 5000 →
    let s : State :=
      { State.resetWith cfg t0 [] with
        inputs := silentFor t0 d ++ bytesAt (t0 + d) [b] :: silentFor (t0 + d + 1) 1000 }
    (∀ k, k ≤ d + 1000 → After k s fun t => t.suState ≠ .operational) ∧
    After (d + 1001) s fun t =>
      t.suState = .operational ∧ t.suTEntry = (t0 + d + 1000) % 2 ^ cfg.cw ∧ t.drained = 1 ∧ t.rxq = [] ∧
      t.rx = Rx.reset

/-- The drained bytes are not interpreted (rules R143, R146: "the byte's value plays no part"): two runs of the controller
that differ only in the values of the bytes waiting stay equal but for those values, and neither touches the receiver. -/
def Obligations.DrainedBytesAreNotInterpreted : Prop :=
  ∀ (s t : State) (q : List Byte), s.sample.rst = false → s.sample.cmds = [] → s.rxq.length = q.length →
    s.suState ≠ .operational → step s = .next t →
    t.rx = s.rx ∧
    ∃ q', q'.length = t.rxq.length ∧ step { s with rxq := q } = .next { t with rxq := q' }

/-! ## Sending -/

/-- `SEND.P` (41_send.md sections 1 and 2): accepted and with `length <= MTU` it emits `FF 55`, one byte equal to `length`,
the payload's bytes in order and the terminator (that the terminator is the parameter `TERM` is decision D10), and returns
`length`; nothing else changes. `wire` is the model's own history of every byte pushed (log 29). -/
def Obligations.SendPacketEmitsAFrame : Prop :=
  ∀ s : State, s.ready = true → s.cmd.lengthOf s.cfg ≤ s.cfg.mtu → s.cmd.lengthOf s.cfg ≤ s.cmd.payload.length →
    exec .sendP s = .next
      { s with
        txh := s.txh ++ [0xFF#8, 0x55#8, BitVec.ofNat 8 (s.cmd.lengthOf s.cfg)]
          ++ s.cmd.payload.take (s.cmd.lengthOf s.cfg) ++ s.cfg.term
        wire := s.wire ++ [0xFF#8, 0x55#8, BitVec.ofNat 8 (s.cmd.lengthOf s.cfg)]
          ++ s.cmd.payload.take (s.cmd.lengthOf s.cfg) ++ s.cfg.term
        outcome := some (.bytesSent (s.cmd.lengthOf s.cfg))
        cmds := s.cmds.tail }

/-- `SEND.S` (41_send.md sections 1 and 2; 30_encoding.md section 2): accepted and with `length <= MTU` it emits exactly
the payload's bytes, with no sync marker, no length byte and no terminator, and returns `length`; nothing else changes.
`wire` is the model's own history of every byte pushed (log 29). -/
def Obligations.SendStreamEmitsThePayload : Prop :=
  ∀ s : State, s.ready = true → s.cmd.lengthOf s.cfg ≤ s.cfg.mtu → s.cmd.lengthOf s.cfg ≤ s.cmd.payload.length →
    exec .sendS s = .next
      { s with
        txh := s.txh ++ s.cmd.payload.take (s.cmd.lengthOf s.cfg)
        wire := s.wire ++ s.cmd.payload.take (s.cmd.lengthOf s.cfg)
        outcome := some (.bytesSent (s.cmd.lengthOf s.cfg))
        cmds := s.cmds.tail }

/-- The fatal breach in either mode (41_send.md section 2, 60_exceptions.md sections 2 and 5, decisions D15, D31):
accepted and with `length > MTU`, whatever the payload, nothing is emitted, `fault` is set, the command ends with cause 1,
and nothing else changes. That the breach is a next state is log 5. -/
def Obligations.OversizeSendTakesTheFault : Prop :=
  ∀ (s : State) (i : Instr), i ∈ [Instr.sendP, .sendS] → s.ready = true → s.cfg.mtu < s.cmd.lengthOf s.cfg →
    exec i s = .next { s with fault := true, outcome := some (.fatal 1), cmds := s.cmds.tail }

/-- A payload shorter than an admissible `length` is outside what the spec defines (U15): both sends refuse it by name (log
9). The length is tested first (41_send.md section 2). -/
def Obligations.ShortPayloadIsRefused : Prop :=
  ∀ s : State, s.ready = true → s.cmd.lengthOf s.cfg ≤ s.cfg.mtu → s.cmd.payload.length < s.cmd.lengthOf s.cfg →
    exec .sendP s = .refused .payloadShort ∧ exec .sendS s = .refused .payloadShort

/-- A zero-length packet send is accepted, emits `FF 55 00` and the terminator, and a receiver in `Idle` that reads those
bytes reports nothing and is in `Idle` again (41_send.md section 2, decision D18). -/
def Obligations.ZeroLengthSendIsNeverReceived : Prop :=
  ∀ (s : State) (r : Rx), s.ready = true → s.cfg.wf = true → s.cmd.lengthOf s.cfg = 0 → r.state = .idle →
    ∃ t q, exec .sendP s = .next t ∧ t.outcome = some (.bytesSent 0) ∧ t.fault = false ∧
      t.txh = s.txh ++ [0xFF#8, 0x55#8, 0#8] ++ s.cfg.term ∧
      r.run s.cfg.mtu ([0xFF#8, 0x55#8, 0#8] ++ s.cfg.term) = some (q, []) ∧ q.state = .idle

/-! ## The receiver over lists of bytes -/

/-- Round trip (42_receive.md section 7; an inference the spec marks as its own): from `Idle`, the receiver run over the
bytes a packet send emits for a payload of 1 to `MTU` bytes, terminator included, reports exactly one frame, equal to the
payload, and ends in `Idle`. -/
def Obligations.RoundTripReportsThePayload : Prop :=
  ∀ (cfg : Config) (p : List Byte) (r : Rx), cfg.wf = true → cfg.mode = .packet →
    1 ≤ p.length → p.length ≤ cfg.mtu → r.state = .idle →
    ∃ q, r.run cfg.mtu (wireFrame cfg.term p) = some (q, [p.map some]) ∧ q.state = .idle

/-- Garbage tolerance (42_receive.md section 7 b): bytes that report no frame and leave the receiver in `Idle`, put before a
valid frame, cost nothing. -/
def Obligations.HarmlessGarbageCostsNothing : Prop :=
  ∀ (mtu : Nat) (g p : List Byte) (r q : Rx), mtu ≤ 255 → 1 ≤ p.length → p.length ≤ mtu →
    r.run mtu g = some (q, []) → q.state = .idle →
    ∃ q', r.run mtu (g ++ wireFrame [] p) = some (q', [p.map some]) ∧ q'.state = .idle

/-- Which garbage is harmless (42_receive.md section 7 b; that the table wins over the source's wider claim is conflict C2):
bytes in which `0xFF` and `0x55` never stand side by side report nothing and change no register from `Idle` but `rx_state`,
which is `Idle` again exactly where they do not end in an odd run of `0xFF`; then a frame after them is reported, alone. -/
def Obligations.GarbageWithoutTheMarkerIsHarmless : Prop :=
  ∀ (mtu : Nat) (g : List Byte) (r : Rx), ¬ [0xFF#8, 0x55#8] <:+: g → r.state = .idle →
    r.run mtu g = some ({ r with state := if trailingSyncs g % 2 = 0 then .idle else .sawFirstSync }, []) ∧
    (∀ p : List Byte, mtu ≤ 255 → 1 ≤ p.length → p.length ≤ mtu → trailingSyncs g % 2 = 0 →
      ∃ q, r.run mtu (g ++ wireFrame [] p) = some (q, [p.map some]) ∧ q.state = .idle)

/-- A stray `0xFF` just before a frame loses the frame (70_reset_and_hazards.md section 3, conflict C2): with no `0xFF` in
its length byte and payload nothing is reported and the receiver ends in `Idle`. -/
def Obligations.StrayFirstSyncByteLosesTheFrame : Prop :=
  ∀ (mtu : Nat) (p : List Byte) (r : Rx), p.length < 255 → (0xFF#8) ∉ p → r.state = .idle →
    r.run mtu ([0xFF#8] ++ wireFrame [] p) = some (r, [])

/-- Length bound enforcement (rule R187; 42_receive.md section 7 c): a length byte of 0 or above `MTU` reports nothing and
leaves the receiver in `Idle` with every other register and the buffer unchanged, and a valid frame after it is reported. -/
def Obligations.BadLengthIsNoise : Prop :=
  ∀ (mtu : Nat) (l : Byte) (p : List Byte) (r : Rx), mtu ≤ 255 → (l.toNat = 0 ∨ mtu < l.toNat) →
    1 ≤ p.length → p.length ≤ mtu → r.state = .idle →
    r.run mtu [0xFF#8, 0x55#8, l] = some (r, []) ∧
    ∃ q, r.run mtu ([0xFF#8, 0x55#8, l] ++ wireFrame [] p) = some (q, [p.map some]) ∧ q.state = .idle

/-- Partial delivery (42_receive.md section 7 d): however a frame is split, the first part reports nothing, and the rest,
continued from where the first part left the receiver, reports exactly the payload. -/
def Obligations.SplitFrameIsReportedOnce : Prop :=
  ∀ (mtu : Nat) (p a b : List Byte) (r : Rx), mtu ≤ 255 → 1 ≤ p.length → p.length ≤ mtu → r.state = .idle →
    wireFrame [] p = a ++ b → b ≠ [] →
    ∃ q q', r.run mtu a = some (q, []) ∧ q.run mtu b = some (q', [p.map some]) ∧ q'.state = .idle

/-! ## Polls, wait, nop, reset -/

/-- A packet poll, rule R191 (that it stops at the completed frame is decision D12), with the capacity the host owes (rule
R199, decision D14), taken whole over the bytes waiting at one instant: one of the two readings rule R84 admits and the
model's choice here (log 7, unsafe). Where the bytes waiting complete no frame it consumes all of them and returns 0;
where a byte completes one it stops there, leaves the rest waiting and returns the frame's length; either way nothing else
changes but the model's own ghost of what the host may read (log 16). -/
def Obligations.PollPacketStopsAtTheFrame : Prop :=
  ∀ s : State, s.ready = true → s.cfg.mtu ≤ s.cmd.capacity →
    (∀ r, s.rx.run s.cfg.mtu s.rxq = some (r, []) →
      exec .pollP s = .next
        { s with
          rx := r
          rxq := []
          frameLen := 0
          outcome := some (.bytesReceived 0 .peer)
          cmds := s.cmds.tail }) ∧
    (∀ a b q r r', s.rxq = a ++ b :: q → s.rx.run s.cfg.mtu a = some (r, []) →
      r.byte s.cfg.mtu b = some (r', true) →
      exec .pollP s = .next
        { s with
          rx := r'
          rxq := q
          frameLen := r'.cursor.toNat
          outcome := some (.bytesReceived r'.cursor.toNat .peer)
          cmds := s.cmds.tail })

/-- A packet poll in the invariant, taken whole over the bytes waiting at one instant (the model's choice among the two
readings rule R84 admits, log 7, unsafe), completes, never faults (rule R195), and reports no partial frame (rule R194).
That it completes holds of this reading only: taken byte by byte it does not return on a line that never pauses and
completes no frame (rule R293, U12). Its result is 0, or the length byte last accepted, with a value in every cell of the
frame and the receiver in `Idle`. A frame in progress is reported exactly where its last byte is waiting, with the number
of bytes stored and still to come, and the bytes after it are left; with fewer bytes waiting than are still to come the
result is 0. The capacity is what the host owes (rule R199, decision D14); the length byte last accepted is the model's
ghost for rule R41 (c) (log 30). -/
def Obligations.PollPacketReportsWholeFrames : Prop :=
  ∀ s : State, s.ready = true → Inv s → s.cfg.mode = .packet → s.cfg.mtu ≤ s.cmd.capacity →
    ∃ t n, exec .pollP s = .next t ∧ t.outcome = some (.bytesReceived n .peer) ∧ t.frameLen = n ∧ n ≤ s.cfg.mtu ∧
      t.fault = false ∧
      (n ≠ 0 → t.rx.state = .idle ∧ t.rx.remaining = 0#8 ∧ t.rx.cursor.toNat = n ∧ t.rx.accepted.toNat = n ∧
        ∀ i, i < n → ∃ v, t.rx.buf.read i = some v ∧ ∀ reading, t.bufData reading i = v) ∧
      (s.rx.state = .readingPayload →
        (s.rx.remaining.toNat ≤ s.rxq.length →
          n = s.rx.cursor.toNat + s.rx.remaining.toNat ∧ t.rxq = s.rxq.drop s.rx.remaining.toNat) ∧
        (s.rxq.length < s.rx.remaining.toNat → n = 0))

/-- A poll with nothing waiting returns 0 at once whatever the receiver's state, and changes nothing of the block (vector
V7): a frame reported before is not reported again (70_reset_and_hazards.md section 3) and a frame half received waits
for ever. -/
def Obligations.PollWithNothingWaitingReturnsZero : Prop :=
  ∀ s : State, s.ready = true → s.cfg.mtu ≤ s.cmd.capacity → s.rxq = [] →
    exec .pollP s = .next
      { s with frameLen := 0, outcome := some (.bytesReceived 0 .peer), cmds := s.cmds.tail }

/-- A packet poll whose `capacity` is below `MTU` is outside what the spec defines: the model, which carries the operand,
refuses it by name (rules R199, R226 c, U10, decision D14, log 8), never a truncated frame. -/
def Obligations.ShortCapacityIsRefused : Prop :=
  ∀ s : State, s.ready = true → s.cmd.capacity < s.cfg.mtu → exec .pollP s = .refused .capacityShort

/-- A stream poll, rule R192 (taken atomically, log 28; corner cases: decision D26): the bytes waiting, at most `capacity`
of them, are consumed and stand in the caller's buffer from index 0 in arrival order; the result is how many; the
receiver's registers and buffer are untouched, and a frame reported before is no longer the host's to read (log 16). That
every other index of the caller's buffer reads as before rests on the model's choice of one buffer for every poll (log 21,
unsafe). -/
def Obligations.PollStreamCopiesUpToCapacity : Prop :=
  ∀ s : State, s.ready = true →
    let n := min (s.cmd.capacityOf s.cfg) s.rxq.length
    ∃ buf : Mem,
      (∀ a, buf.read a = if a < n then s.rxq[a]? else s.hostBuf.read a) ∧
      exec .pollS s = .next
        { s with
          rxq := s.rxq.drop n
          hostBuf := buf
          frameLen := 0
          outcome := some (.bytesReceived n .peer)
          cmds := s.cmds.tail }

/-- `WAIT`, rule R222 (that `timeout` is not used is decision D17): the availability at the moment of the call; nothing is
consumed and nothing else changes. -/
def Obligations.WaitReportsAvailability : Prop :=
  ∀ s : State, s.ready = true →
    exec .wait s = .next
      { s with outcome := some (.hasData (decide (s.rxq ≠ []))), cmds := s.cmds.tail }

/-- `NOP` (43_transport_ops.md section 1, decision D6): accepted in every state, before `Operational` and after the fault
too; nothing changes but that the port is free. -/
def Obligations.NopDoesNothing : Prop :=
  ∀ s : State, exec .nop s = .next { s with cmds := s.cmds.tail }

/-- `CREATE`, rule R221 with the reset values of R46 (decisions D2, D11): what it writes, from every state, the faulted
one too; the bytes waiting stay (R281), and so do the clock and the configuration, which are not the block's registers.
That the caller's buffer stays is the model's choice (log 21, unsafe). What waited at the command port is dropped (log
10), a stream poll there, or a packet poll taken whole, with nothing of it done (log 31, unsafe). `wire` is the model's
own history of every byte pushed (log 29): none is taken back, and of a send in progress the bytes already pushed stay on
it (R281); `ResetCutsOffASend` says which. -/
def Obligations.CreateResetsTheBlock : Prop :=
  ∀ s : State,
    exec .create s = .next
      { s with
        suState := .waitInput
        suTEntry := s.now
        rx := ⟨.idle, 0#8, 0#8, [], 0#8⟩
        fault := false
        txh := []
        wire := s.wire ++ s.cutOff
        drained := 0
        cmds := []
        outcome := none
        frameLen := 0 }

/-- What reset leaves of a send in progress (70_reset_and_hazards.md section 1, rule R281): "the bytes already pushed stay
on the wire as a truncated frame": of the frame (in stream mode, the payload) the first `cut` bytes, `cut` being the
number the environment names (log 29); where no send was going out, nothing. `TXH`, the bytes since reset, is empty either
way. That the bytes waiting stay where a poll is aborted is log 31 (unsafe). -/
def Obligations.ResetCutsOffASend : Prop :=
  ∀ s : State,
    let n := s.cmd.lengthOf s.cfg
    let sending : Prop := s.ready = true ∧ s.cmd.op = .send ∧ n ≤ s.cfg.mtu ∧ n ≤ s.cmd.payload.length
    ∃ t, exec .create s = .next t ∧ t.txh = [] ∧ t.cmds = [] ∧ t.rxq = s.rxq ∧
      (sending → s.cfg.mode = .packet → t.wire = s.wire ++
        ([0xFF#8, 0x55#8, BitVec.ofNat 8 n] ++ s.cmd.payload.take n ++ s.cfg.term).take s.cut) ∧
      (sending → s.cfg.mode = .stream → t.wire = s.wire ++ (s.cmd.payload.take n).take s.cut) ∧
      (¬ sending → t.wire = s.wire)

/-- Acceptance, rule R226 (decisions D15, D16): while `ready` is 0 every send, poll and wait is turned away whatever its
operands, an oversize send too, and nothing happens but that the command ends in the outcome *refused*. That the model
answers a next state for it is log 6 (unsafe); that a poll turned away leaves the frame reported before to the host, R87 and
U3 speaking of the next poll issued, is log 27 (unsafe). -/
def Obligations.CommandsAreTurnedAwayUntilReady : Prop :=
  ∀ (s : State) (i : Instr), i ∈ [Instr.sendP, .sendS, .pollP, .pollS, .wait] → s.ready = false →
    exec i s = .next
      { s with
        outcome := some (.refused (if s.fault = true then .faulted else .notOperational))
        cmds := s.cmds.tail }

/-! ## Frames and whole-machine rules -/

/-- Each side keeps to its state (10_state.md section 7, R42): sends and `WAIT` write no receiver register and not the
buffer, nor do the startup transitions, turned away or not; a poll, whole or row by row, writes neither `su_state` nor
`su_t_entry`. That a poll emits nothing is 20_memory.md section 4 (R82), and that it raises no fault 42_receive.md section
7 (R195). The clauses on `frameLen` (log 16), `hostBuf` (log 21, unsafe), `wire` (log 29) and `rx.accepted` (log 30) are
about the model's own fields. -/
def Obligations.EachSideKeepsToItsState : Prop :=
  (∀ (s t : State) (i : Instr),
    i ∈ [Instr.sendP, .sendS, .wait, .suExpireWait, .suFirst, .suHoldWait, .suExpireDrain, .suDrain, .suHoldDrain, .suDone] →
    exec i s = .next t → t.rx = s.rx ∧ t.frameLen = s.frameLen ∧ t.hostBuf = s.hostBuf) ∧
  (∀ (s t : State) (b : Byte) (i : Instr),
    i ∈ [Instr.pollP, .pollS, .rxSync1, .rxSkip b, .rxSync2, .rxResync b, .rxLen b, .rxBadlen b, .rxData b, .rxLast b] →
    exec i s = .next t → t.suState = s.suState ∧ t.suTEntry = s.suTEntry ∧ t.txh = s.txh ∧ t.wire = s.wire ∧
      t.fault = s.fault)

/-- The transmit side: a step appends at the end of what was pushed or leaves it alone, and only an accepted send appends,
cut off by reset or not (rules R73, R81 c, R82, R281); reset alone empties `TXH`, the history since reset. `wire` is the
model's own history of every byte pushed (log 29). -/
def Obligations.OnlyASendAppendsToTheWire : Prop :=
  ∀ s t : State, step s = .next t →
    ∃ bytes, t.wire = s.wire ++ bytes ∧
      (bytes ≠ [] → s.ready = true ∧ s.sample.cmds ≠ [] ∧ s.sample.cmd.op = .send) ∧
      (s.sample.rst = true → t.txh = []) ∧
      (s.sample.rst = false → t.txh = s.txh ++ bytes)

/-- Rule R72: the receive source is first in, first out: the line appends at the tail, and a step takes bytes from the
head of what was waiting and what the line appended, in order and each once, and never puts one back. With an empty
schedule the line appends nothing (log 1). -/
def Obligations.ReceiveSourceIsFirstInFirstOut : Prop :=
  ∀ s t : State, step s = .next t →
    s.sample.rxq = s.rxq ++ (s.inputs.head?.map Input.line).getD [] ∧
    ∃ consumed, s.sample.rxq = consumed ++ t.rxq

/-- Commands take effect in the order presented and one at a time (rule R225, decision D33): a step leaves the commands
presented as they are, finishes the oldest one, or, at reset, drops them all. -/
def Obligations.CommandsFinishInOrder : Prop :=
  ∀ s t : State, step s = .next t →
    (s.sample.rst = true → t.cmds = []) ∧
    (s.sample.rst = false → t.cmds = s.sample.cmds ∨ t.cmds = s.sample.cmds.tail)

/-- The fault has one cause (60_exceptions.md section 2; the flag and its code are decisions D15, D31): a step that sets
`fault` executed an accepted send with `length > MTU`, in packet or in stream mode, and changed nothing else but the end
of the command. -/
def Obligations.OnlyAnOversizeSendFaults : Prop :=
  ∀ s t : State, step s = .next t → s.fault = false → t.fault = true →
    s.sample.cmd.op = .send ∧ s.ready = true ∧ s.cfg.mtu < s.sample.cmd.lengthOf s.cfg ∧
    t = { s.sample with fault := true, outcome := some (.fatal 1), cmds := s.sample.cmds.tail }

/-- After the fault (decision D15): without a reset the fault stays, `ready` stays 0, no byte is emitted, none is taken
from the receive source, and the receiver keeps its state. -/
def Obligations.FaultLastsUntilReset : Prop :=
  ∀ s t : State, Inv s → s.fault = true → s.sample.rst = false → step s = .next t →
    t.fault = true ∧ t.ready = false ∧ t.txh = s.txh ∧ t.rxq = s.sample.rxq ∧ t.rx = s.rx ∧ t.suState = s.suState

/-- No step changes the configuration (rules R8, R39) or the model's choice between the two readings of a poll. -/
def Obligations.ConfigurationNeverChanges : Prop :=
  ∀ s t : State, step s = .next t → t.cfg = s.cfg ∧ t.pollGrain = s.pollGrain

/-- In stream mode no step but a reset touches the receiver (rules R116, R192). -/
def Obligations.StreamModeLeavesTheReceiverAlone : Prop :=
  ∀ s t : State, step s = .next t → s.cfg.mode = .stream → s.sample.rst = false → t.rx = s.rx

/-- A reported frame is stable until the next poll (rule R87, decision D29): a step that is neither a reset nor made for a
poll leaves every byte the host's read port gives for it as it was. -/
def Obligations.ReportedFrameIsStable : Prop :=
  ∀ s t : State, step s = .next t → s.sample.rst = false → (s.sample.cmds = [] ∨ s.sample.cmd.op ≠ .poll) →
    t.frameLen = s.frameLen ∧ t.rx = s.rx ∧ ∀ reading index, t.bufData reading index = s.bufData reading index

/-! ## Invariants and headline results -/

/-- The invariant holds right after reset, for every well-formed configuration. -/
def Obligations.InvariantHoldsAtReset : Prop :=
  ∀ (cfg : Config) (clock : Nat) (q : List Byte), cfg.wf = true → Inv (State.resetWith cfg clock q)

/-- Every step keeps the invariant (rule R41 and the model's own fields), from every state that meets it. -/
def Obligations.EveryStepKeepsTheInvariant : Prop :=
  ∀ s t : State, Inv s → step s = .next t → Inv t

/-- In the invariant the machine does not stop: a step answers a next state, unless a send is at the port whose payload is
shorter than its length (U15), or a packet poll whose capacity is below `MTU` (U10). In particular the write index of the
receive buffer is always inside it (rule R77). That an oversize send and a command turned away are next states is the
model's reading of the outcomes *fault* and *refused* (log 5; log 6, unsafe), and that a poll taken whole completes is log
7. -/
def Obligations.StepNeverFaults : Prop :=
  ∀ s : State, Inv s →
    (∃ t, step s = .next t) ∨
    (step s = .refused .payloadShort ∧ s.sample.cmd.op = .send ∧
      s.sample.cmd.payload.length < s.sample.cmd.lengthOf s.cfg) ∨
    (step s = .refused .capacityShort ∧ s.cfg.mode = .packet ∧ s.sample.cmd.op = .poll ∧
      s.sample.cmd.capacity < s.cfg.mtu)

/-- The two readings of a packet poll agree (20_memory.md section 4, decision D21): with a quiet environment, the poll taken
one byte a step comes, after one step more than the bytes it consumes or exactly as many, to the very answer of the poll
taken whole. -/
def Obligations.PollByBytesIsThePollTakenWhole : Prop :=
  ∀ (s : State) (c : Command) (cs : List Command), s.inputs = [] → s.rst = false → s.cmds = c :: cs → c.op = .poll →
    s.cfg.mode = .packet → s.pollGrain = .perByte → s.ready = true →
    ∃ k, 1 ≤ k ∧ k ≤ s.rxq.length + 1 ∧ Host.Core.run core k s = exec .pollP s

/-- Send and receive through the machine: a packet send of a payload of 1 to `MTU` bytes, its bytes brought back on an idle
line, and the poll presented after it, with the capacity the host owes and taken whole (log 7): the poll returns the
payload's length and the host reads the payload, byte for byte, at its read port. -/
def Obligations.SentPayloadIsReadBack : Prop :=
  ∀ (s : State) (c p : Command) (cs : List Command), Inv s → s.ready = true → s.cfg.mode = .packet →
    s.rx.state = .idle → s.rxq = [] → s.txh = [] → s.cmds = c :: p :: cs → s.cfg.mtu ≤ p.capacity →
    c.length = c.payload.length → 1 ≤ c.payload.length → c.payload.length ≤ s.cfg.mtu →
    ∃ t u, exec .sendP s = .next t ∧ exec .pollP { t with rxq := t.txh } = .next u ∧
      u.outcome = some (.bytesReceived c.payload.length .peer) ∧ u.rxq = s.cfg.term ∧
      ∀ i reading, i < c.payload.length → some (u.bufData reading i) = c.payload[i]?
end

