-- ==== Sys2Proof/Laws/State.lean ====
section
/-! SUPPORT. What each named operation makes of each field of the state, one lemma per field and operation, so that no later
proof unfolds a record update; and what one sample of the ports makes of each field. -/

namespace Sys2Proof.Machine

variable (s : State)

@[simp] theorem State.enterSu_cfg (st : SuState) : (s.enterSu st).cfg = s.cfg := rfl
@[simp] theorem State.enterSu_suState (st : SuState) : (s.enterSu st).suState = st := rfl
@[simp] theorem State.enterSu_suTEntry (st : SuState) : (s.enterSu st).suTEntry = s.now := rfl
@[simp] theorem State.enterSu_rx (st : SuState) : (s.enterSu st).rx = s.rx := rfl
@[simp] theorem State.enterSu_fault (st : SuState) : (s.enterSu st).fault = s.fault := rfl
@[simp] theorem State.enterSu_rxq (st : SuState) : (s.enterSu st).rxq = s.rxq := rfl
@[simp] theorem State.enterSu_txh (st : SuState) : (s.enterSu st).txh = s.txh := rfl
@[simp] theorem State.enterSu_wire (st : SuState) : (s.enterSu st).wire = s.wire := rfl
@[simp] theorem State.enterSu_clock (st : SuState) : (s.enterSu st).clock = s.clock := rfl
@[simp] theorem State.enterSu_drained (st : SuState) : (s.enterSu st).drained = s.drained := rfl
@[simp] theorem State.enterSu_rst (st : SuState) : (s.enterSu st).rst = s.rst := rfl
@[simp] theorem State.enterSu_cut (st : SuState) : (s.enterSu st).cut = s.cut := rfl
@[simp] theorem State.enterSu_cmds (st : SuState) : (s.enterSu st).cmds = s.cmds := rfl
@[simp] theorem State.enterSu_outcome (st : SuState) : (s.enterSu st).outcome = s.outcome := rfl
@[simp] theorem State.enterSu_hostBuf (st : SuState) : (s.enterSu st).hostBuf = s.hostBuf := rfl
@[simp] theorem State.enterSu_frameLen (st : SuState) : (s.enterSu st).frameLen = s.frameLen := rfl
@[simp] theorem State.enterSu_pollGrain (st : SuState) : (s.enterSu st).pollGrain = s.pollGrain := rfl
@[simp] theorem State.enterSu_inputs (st : SuState) : (s.enterSu st).inputs = s.inputs := rfl

@[simp] theorem State.emit_cfg (bytes : List Byte) : (s.emit bytes).cfg = s.cfg := rfl
@[simp] theorem State.emit_suState (bytes : List Byte) : (s.emit bytes).suState = s.suState := rfl
@[simp] theorem State.emit_suTEntry (bytes : List Byte) : (s.emit bytes).suTEntry = s.suTEntry := rfl
@[simp] theorem State.emit_rx (bytes : List Byte) : (s.emit bytes).rx = s.rx := rfl
@[simp] theorem State.emit_fault (bytes : List Byte) : (s.emit bytes).fault = s.fault := rfl
@[simp] theorem State.emit_rxq (bytes : List Byte) : (s.emit bytes).rxq = s.rxq := rfl
@[simp] theorem State.emit_txh (bytes : List Byte) : (s.emit bytes).txh = s.txh ++ bytes := rfl
@[simp] theorem State.emit_wire (bytes : List Byte) : (s.emit bytes).wire = s.wire ++ bytes := rfl
@[simp] theorem State.emit_clock (bytes : List Byte) : (s.emit bytes).clock = s.clock := rfl
@[simp] theorem State.emit_drained (bytes : List Byte) : (s.emit bytes).drained = s.drained := rfl
@[simp] theorem State.emit_rst (bytes : List Byte) : (s.emit bytes).rst = s.rst := rfl
@[simp] theorem State.emit_cut (bytes : List Byte) : (s.emit bytes).cut = s.cut := rfl
@[simp] theorem State.emit_cmds (bytes : List Byte) : (s.emit bytes).cmds = s.cmds := rfl
@[simp] theorem State.emit_outcome (bytes : List Byte) : (s.emit bytes).outcome = s.outcome := rfl
@[simp] theorem State.emit_hostBuf (bytes : List Byte) : (s.emit bytes).hostBuf = s.hostBuf := rfl
@[simp] theorem State.emit_frameLen (bytes : List Byte) : (s.emit bytes).frameLen = s.frameLen := rfl
@[simp] theorem State.emit_pollGrain (bytes : List Byte) : (s.emit bytes).pollGrain = s.pollGrain := rfl
@[simp] theorem State.emit_inputs (bytes : List Byte) : (s.emit bytes).inputs = s.inputs := rfl

@[simp] theorem State.setRx_cfg (r : Rx) : (s.setRx r).cfg = s.cfg := rfl
@[simp] theorem State.setRx_suState (r : Rx) : (s.setRx r).suState = s.suState := rfl
@[simp] theorem State.setRx_suTEntry (r : Rx) : (s.setRx r).suTEntry = s.suTEntry := rfl
@[simp] theorem State.setRx_rx (r : Rx) : (s.setRx r).rx = r := rfl
@[simp] theorem State.setRx_fault (r : Rx) : (s.setRx r).fault = s.fault := rfl
@[simp] theorem State.setRx_rxq (r : Rx) : (s.setRx r).rxq = s.rxq := rfl
@[simp] theorem State.setRx_txh (r : Rx) : (s.setRx r).txh = s.txh := rfl
@[simp] theorem State.setRx_wire (r : Rx) : (s.setRx r).wire = s.wire := rfl
@[simp] theorem State.setRx_clock (r : Rx) : (s.setRx r).clock = s.clock := rfl
@[simp] theorem State.setRx_drained (r : Rx) : (s.setRx r).drained = s.drained := rfl
@[simp] theorem State.setRx_rst (r : Rx) : (s.setRx r).rst = s.rst := rfl
@[simp] theorem State.setRx_cut (r : Rx) : (s.setRx r).cut = s.cut := rfl
@[simp] theorem State.setRx_cmds (r : Rx) : (s.setRx r).cmds = s.cmds := rfl
@[simp] theorem State.setRx_outcome (r : Rx) : (s.setRx r).outcome = s.outcome := rfl
@[simp] theorem State.setRx_hostBuf (r : Rx) : (s.setRx r).hostBuf = s.hostBuf := rfl
@[simp] theorem State.setRx_frameLen (r : Rx) : (s.setRx r).frameLen = s.frameLen := rfl
@[simp] theorem State.setRx_pollGrain (r : Rx) : (s.setRx r).pollGrain = s.pollGrain := rfl
@[simp] theorem State.setRx_inputs (r : Rx) : (s.setRx r).inputs = s.inputs := rfl

@[simp] theorem State.setRxq_cfg (q : List Byte) : (s.setRxq q).cfg = s.cfg := rfl
@[simp] theorem State.setRxq_suState (q : List Byte) : (s.setRxq q).suState = s.suState := rfl
@[simp] theorem State.setRxq_suTEntry (q : List Byte) : (s.setRxq q).suTEntry = s.suTEntry := rfl
@[simp] theorem State.setRxq_rx (q : List Byte) : (s.setRxq q).rx = s.rx := rfl
@[simp] theorem State.setRxq_fault (q : List Byte) : (s.setRxq q).fault = s.fault := rfl
@[simp] theorem State.setRxq_rxq (q : List Byte) : (s.setRxq q).rxq = q := rfl
@[simp] theorem State.setRxq_txh (q : List Byte) : (s.setRxq q).txh = s.txh := rfl
@[simp] theorem State.setRxq_wire (q : List Byte) : (s.setRxq q).wire = s.wire := rfl
@[simp] theorem State.setRxq_clock (q : List Byte) : (s.setRxq q).clock = s.clock := rfl
@[simp] theorem State.setRxq_drained (q : List Byte) : (s.setRxq q).drained = s.drained := rfl
@[simp] theorem State.setRxq_rst (q : List Byte) : (s.setRxq q).rst = s.rst := rfl
@[simp] theorem State.setRxq_cut (q : List Byte) : (s.setRxq q).cut = s.cut := rfl
@[simp] theorem State.setRxq_cmds (q : List Byte) : (s.setRxq q).cmds = s.cmds := rfl
@[simp] theorem State.setRxq_outcome (q : List Byte) : (s.setRxq q).outcome = s.outcome := rfl
@[simp] theorem State.setRxq_hostBuf (q : List Byte) : (s.setRxq q).hostBuf = s.hostBuf := rfl
@[simp] theorem State.setRxq_frameLen (q : List Byte) : (s.setRxq q).frameLen = s.frameLen := rfl
@[simp] theorem State.setRxq_pollGrain (q : List Byte) : (s.setRxq q).pollGrain = s.pollGrain := rfl
@[simp] theorem State.setRxq_inputs (q : List Byte) : (s.setRxq q).inputs = s.inputs := rfl

@[simp] theorem State.finish_cfg (o : CmdOutcome) : (s.finish o).cfg = s.cfg := rfl
@[simp] theorem State.finish_suState (o : CmdOutcome) : (s.finish o).suState = s.suState := rfl
@[simp] theorem State.finish_suTEntry (o : CmdOutcome) : (s.finish o).suTEntry = s.suTEntry := rfl
@[simp] theorem State.finish_rx (o : CmdOutcome) : (s.finish o).rx = s.rx := rfl
@[simp] theorem State.finish_fault (o : CmdOutcome) : (s.finish o).fault = s.fault := rfl
@[simp] theorem State.finish_rxq (o : CmdOutcome) : (s.finish o).rxq = s.rxq := rfl
@[simp] theorem State.finish_txh (o : CmdOutcome) : (s.finish o).txh = s.txh := rfl
@[simp] theorem State.finish_wire (o : CmdOutcome) : (s.finish o).wire = s.wire := rfl
@[simp] theorem State.finish_clock (o : CmdOutcome) : (s.finish o).clock = s.clock := rfl
@[simp] theorem State.finish_drained (o : CmdOutcome) : (s.finish o).drained = s.drained := rfl
@[simp] theorem State.finish_rst (o : CmdOutcome) : (s.finish o).rst = s.rst := rfl
@[simp] theorem State.finish_cut (o : CmdOutcome) : (s.finish o).cut = s.cut := rfl
@[simp] theorem State.finish_cmds (o : CmdOutcome) : (s.finish o).cmds = s.cmds.tail := rfl
@[simp] theorem State.finish_outcome (o : CmdOutcome) : (s.finish o).outcome = some o := rfl
@[simp] theorem State.finish_hostBuf (o : CmdOutcome) : (s.finish o).hostBuf = s.hostBuf := rfl
@[simp] theorem State.finish_frameLen (o : CmdOutcome) : (s.finish o).frameLen = s.frameLen := rfl
@[simp] theorem State.finish_pollGrain (o : CmdOutcome) : (s.finish o).pollGrain = s.pollGrain := rfl
@[simp] theorem State.finish_inputs (o : CmdOutcome) : (s.finish o).inputs = s.inputs := rfl

@[simp] theorem State.releaseFrame_cfg : s.releaseFrame.cfg = s.cfg := rfl
@[simp] theorem State.releaseFrame_suState : s.releaseFrame.suState = s.suState := rfl
@[simp] theorem State.releaseFrame_suTEntry : s.releaseFrame.suTEntry = s.suTEntry := rfl
@[simp] theorem State.releaseFrame_rx : s.releaseFrame.rx = s.rx := rfl
@[simp] theorem State.releaseFrame_fault : s.releaseFrame.fault = s.fault := rfl
@[simp] theorem State.releaseFrame_rxq : s.releaseFrame.rxq = s.rxq := rfl
@[simp] theorem State.releaseFrame_txh : s.releaseFrame.txh = s.txh := rfl
@[simp] theorem State.releaseFrame_wire : s.releaseFrame.wire = s.wire := rfl
@[simp] theorem State.releaseFrame_clock : s.releaseFrame.clock = s.clock := rfl
@[simp] theorem State.releaseFrame_drained : s.releaseFrame.drained = s.drained := rfl
@[simp] theorem State.releaseFrame_rst : s.releaseFrame.rst = s.rst := rfl
@[simp] theorem State.releaseFrame_cut : s.releaseFrame.cut = s.cut := rfl
@[simp] theorem State.releaseFrame_cmds : s.releaseFrame.cmds = s.cmds := rfl
@[simp] theorem State.releaseFrame_outcome : s.releaseFrame.outcome = s.outcome := rfl
@[simp] theorem State.releaseFrame_hostBuf : s.releaseFrame.hostBuf = s.hostBuf := rfl
@[simp] theorem State.releaseFrame_frameLen : s.releaseFrame.frameLen = 0 := rfl
@[simp] theorem State.releaseFrame_pollGrain : s.releaseFrame.pollGrain = s.pollGrain := rfl
@[simp] theorem State.releaseFrame_inputs : s.releaseFrame.inputs = s.inputs := rfl

@[simp] theorem State.reportFrame_cfg : s.reportFrame.cfg = s.cfg := rfl
@[simp] theorem State.reportFrame_suState : s.reportFrame.suState = s.suState := rfl
@[simp] theorem State.reportFrame_suTEntry : s.reportFrame.suTEntry = s.suTEntry := rfl
@[simp] theorem State.reportFrame_rx : s.reportFrame.rx = s.rx := rfl
@[simp] theorem State.reportFrame_fault : s.reportFrame.fault = s.fault := rfl
@[simp] theorem State.reportFrame_rxq : s.reportFrame.rxq = s.rxq := rfl
@[simp] theorem State.reportFrame_txh : s.reportFrame.txh = s.txh := rfl
@[simp] theorem State.reportFrame_wire : s.reportFrame.wire = s.wire := rfl
@[simp] theorem State.reportFrame_clock : s.reportFrame.clock = s.clock := rfl
@[simp] theorem State.reportFrame_drained : s.reportFrame.drained = s.drained := rfl
@[simp] theorem State.reportFrame_rst : s.reportFrame.rst = s.rst := rfl
@[simp] theorem State.reportFrame_cut : s.reportFrame.cut = s.cut := rfl
@[simp] theorem State.reportFrame_cmds : s.reportFrame.cmds = s.cmds.tail := rfl
@[simp] theorem State.reportFrame_outcome : s.reportFrame.outcome = some (.bytesReceived s.rx.cursor.toNat .peer) := rfl
@[simp] theorem State.reportFrame_hostBuf : s.reportFrame.hostBuf = s.hostBuf := rfl
@[simp] theorem State.reportFrame_frameLen : s.reportFrame.frameLen = s.rx.cursor.toNat := rfl
@[simp] theorem State.reportFrame_pollGrain : s.reportFrame.pollGrain = s.pollGrain := rfl
@[simp] theorem State.reportFrame_inputs : s.reportFrame.inputs = s.inputs := rfl

@[simp] theorem State.raiseFatal_cfg : s.raiseFatal.cfg = s.cfg := rfl
@[simp] theorem State.raiseFatal_suState : s.raiseFatal.suState = s.suState := rfl
@[simp] theorem State.raiseFatal_suTEntry : s.raiseFatal.suTEntry = s.suTEntry := rfl
@[simp] theorem State.raiseFatal_rx : s.raiseFatal.rx = s.rx := rfl
@[simp] theorem State.raiseFatal_fault : s.raiseFatal.fault = true := rfl
@[simp] theorem State.raiseFatal_rxq : s.raiseFatal.rxq = s.rxq := rfl
@[simp] theorem State.raiseFatal_txh : s.raiseFatal.txh = s.txh := rfl
@[simp] theorem State.raiseFatal_wire : s.raiseFatal.wire = s.wire := rfl
@[simp] theorem State.raiseFatal_clock : s.raiseFatal.clock = s.clock := rfl
@[simp] theorem State.raiseFatal_drained : s.raiseFatal.drained = s.drained := rfl
@[simp] theorem State.raiseFatal_rst : s.raiseFatal.rst = s.rst := rfl
@[simp] theorem State.raiseFatal_cut : s.raiseFatal.cut = s.cut := rfl
@[simp] theorem State.raiseFatal_cmds : s.raiseFatal.cmds = s.cmds.tail := rfl
@[simp] theorem State.raiseFatal_outcome : s.raiseFatal.outcome = some (.fatal causeSendOversize) := rfl
@[simp] theorem State.raiseFatal_hostBuf : s.raiseFatal.hostBuf = s.hostBuf := rfl
@[simp] theorem State.raiseFatal_frameLen : s.raiseFatal.frameLen = s.frameLen := rfl
@[simp] theorem State.raiseFatal_pollGrain : s.raiseFatal.pollGrain = s.pollGrain := rfl
@[simp] theorem State.raiseFatal_inputs : s.raiseFatal.inputs = s.inputs := rfl

@[simp] theorem State.applyReset_cfg : s.applyReset.cfg = s.cfg := rfl
@[simp] theorem State.applyReset_suState : s.applyReset.suState = .waitInput := rfl
@[simp] theorem State.applyReset_suTEntry : s.applyReset.suTEntry = s.now := rfl
@[simp] theorem State.applyReset_rx : s.applyReset.rx = Rx.reset := rfl
@[simp] theorem State.applyReset_fault : s.applyReset.fault = false := rfl
@[simp] theorem State.applyReset_rxq : s.applyReset.rxq = s.rxq := rfl
@[simp] theorem State.applyReset_txh : s.applyReset.txh = [] := rfl
@[simp] theorem State.applyReset_wire : s.applyReset.wire = s.wire ++ s.cutOff := rfl
@[simp] theorem State.applyReset_clock : s.applyReset.clock = s.clock := rfl
@[simp] theorem State.applyReset_drained : s.applyReset.drained = 0 := rfl
@[simp] theorem State.applyReset_rst : s.applyReset.rst = s.rst := rfl
@[simp] theorem State.applyReset_cut : s.applyReset.cut = s.cut := rfl
@[simp] theorem State.applyReset_cmds : s.applyReset.cmds = [] := rfl
@[simp] theorem State.applyReset_outcome : s.applyReset.outcome = none := rfl
@[simp] theorem State.applyReset_hostBuf : s.applyReset.hostBuf = s.hostBuf := rfl
@[simp] theorem State.applyReset_frameLen : s.applyReset.frameLen = 0 := rfl
@[simp] theorem State.applyReset_pollGrain : s.applyReset.pollGrain = s.pollGrain := rfl
@[simp] theorem State.applyReset_inputs : s.applyReset.inputs = s.inputs := rfl

variable (i : Input) (rest : List Input)

@[simp] theorem State.arrive_cfg : (s.arrive i rest).cfg = s.cfg := by unfold State.arrive; split <;> rfl
@[simp] theorem State.arrive_suState : (s.arrive i rest).suState = s.suState := by unfold State.arrive; split <;> rfl
@[simp] theorem State.arrive_suTEntry : (s.arrive i rest).suTEntry = if s.rst && !i.rst then i.now % 2 ^ s.cfg.cw else s.suTEntry := by unfold State.arrive; split <;> simp_all [State.now]
@[simp] theorem State.arrive_rx : (s.arrive i rest).rx = s.rx := by unfold State.arrive; split <;> rfl
@[simp] theorem State.arrive_fault : (s.arrive i rest).fault = s.fault := by unfold State.arrive; split <;> rfl
@[simp] theorem State.arrive_rxq : (s.arrive i rest).rxq = s.rxq ++ i.line := by unfold State.arrive; split <;> rfl
@[simp] theorem State.arrive_txh : (s.arrive i rest).txh = s.txh := by unfold State.arrive; split <;> rfl
@[simp] theorem State.arrive_wire : (s.arrive i rest).wire = s.wire := by unfold State.arrive; split <;> rfl
@[simp] theorem State.arrive_clock : (s.arrive i rest).clock = i.now := by unfold State.arrive; split <;> rfl
@[simp] theorem State.arrive_drained : (s.arrive i rest).drained = s.drained := by unfold State.arrive; split <;> rfl
@[simp] theorem State.arrive_rst : (s.arrive i rest).rst = i.rst := by unfold State.arrive; split <;> rfl
@[simp] theorem State.arrive_cut : (s.arrive i rest).cut = i.cut := by unfold State.arrive; split <;> rfl
@[simp] theorem State.arrive_cmds : (s.arrive i rest).cmds = s.cmds ++ i.cmd.toList := by unfold State.arrive; split <;> rfl
@[simp] theorem State.arrive_outcome : (s.arrive i rest).outcome = s.outcome := by unfold State.arrive; split <;> rfl
@[simp] theorem State.arrive_hostBuf : (s.arrive i rest).hostBuf = s.hostBuf := by unfold State.arrive; split <;> rfl
@[simp] theorem State.arrive_frameLen : (s.arrive i rest).frameLen = s.frameLen := by unfold State.arrive; split <;> rfl
@[simp] theorem State.arrive_pollGrain : (s.arrive i rest).pollGrain = s.pollGrain := by unfold State.arrive; split <;> rfl
@[simp] theorem State.arrive_inputs : (s.arrive i rest).inputs = rest := by unfold State.arrive; split <;> rfl

@[simp] theorem State.sample_cfg : s.sample.cfg = s.cfg := by unfold State.sample; split <;> simp
@[simp] theorem State.sample_suState : s.sample.suState = s.suState := by unfold State.sample; split <;> simp
@[simp] theorem State.sample_rx : s.sample.rx = s.rx := by unfold State.sample; split <;> simp
@[simp] theorem State.sample_fault : s.sample.fault = s.fault := by unfold State.sample; split <;> simp
@[simp] theorem State.sample_txh : s.sample.txh = s.txh := by unfold State.sample; split <;> simp
@[simp] theorem State.sample_wire : s.sample.wire = s.wire := by unfold State.sample; split <;> simp
@[simp] theorem State.sample_drained : s.sample.drained = s.drained := by unfold State.sample; split <;> simp
@[simp] theorem State.sample_outcome : s.sample.outcome = s.outcome := by unfold State.sample; split <;> simp
@[simp] theorem State.sample_hostBuf : s.sample.hostBuf = s.hostBuf := by unfold State.sample; split <;> simp
@[simp] theorem State.sample_frameLen : s.sample.frameLen = s.frameLen := by unfold State.sample; split <;> simp
@[simp] theorem State.sample_pollGrain : s.sample.pollGrain = s.pollGrain := by unfold State.sample; split <;> simp

end Sys2Proof.Machine
end

