-- ==== Sys2Proof/Laws/Ops.lean ====
section
/-! SUPPORT. One lemma for each shared operation that says everything it can do. -/

namespace Sys2Proof.Machine

open Sys2Proof

/-- `RxPop` with the value thrown away: a byte was waiting, it is gone and counted. -/
theorem drainByte_next {s t : State} {f : State → State} (h : drainByte s f = .next t) :
    ∃ b q, s.rxq = b :: q ∧ t = f { s with rxq := q, drained := s.drained + 1 } := by
  unfold drainByte at h
  split at h
  · cases h
  · rename_i b q hq
    exact ⟨b, q, hq, by cases h; rfl⟩

theorem drainByte_cons {s : State} {f : State → State} {b : Byte} {q : List Byte} (h : s.rxq = b :: q) :
    drainByte s f = .next (f { s with rxq := q, drained := s.drained + 1 }) := by
  simp [drainByte, h]

theorem drainByte_nil {s : State} {f : State → State} (h : s.rxq = []) : drainByte s f = .refused .noByte := by
  simp [drainByte, h]

/-- Acceptance (rule R226): the command ran because the block was ready, or it was turned away. -/
theorem whenReady_next {s t : State} {body : Host.Outcome State Fault Refusal} (h : whenReady s body = .next t) :
    (s.ready = true ∧ body = .next t) ∨ (s.ready = false ∧ t = s.finish (.refused s.whyTurnedAway)) := by
  unfold whenReady at h
  split at h
  · rename_i hr
    exact .inl ⟨hr, h⟩
  · rename_i hr
    exact .inr ⟨by simpa using hr, by cases h; rfl⟩

theorem whenReady_ready {s : State} {body : Host.Outcome State Fault Refusal} (h : s.ready = true) :
    whenReady s body = body := by
  simp [whenReady, h]

theorem whenReady_not_ready {s : State} {body : Host.Outcome State Fault Refusal} (h : s.ready = false) :
    whenReady s body = .next (s.finish (.refused s.whyTurnedAway)) := by
  simp [whenReady, h]

/-- A receiver transition that may write the buffer answers a next state exactly where it is defined. -/
theorem storeRx_next {r : Option Rx} {f : Rx → State} {t : State} (h : storeRx r f = .next t) :
    ∃ q, r = some q ∧ t = f q := by
  cases r with
  | none => simp [storeRx] at h
  | some q => exact ⟨q, rfl, by cases h; rfl⟩

@[simp] theorem storeRx_some (q : Rx) (f : Rx → State) : storeRx (some q) f = .next (f q) := rfl

@[simp] theorem storeRx_none (f : Rx → State) : storeRx none f = .fault .rxBufIndex := rfl

/-- `send` answers a next state in two ways: the fault is taken, or the bytes went out. -/
theorem sendBytes_next {s t : State} {mode : Mode} (h : sendBytes s mode = .next t) :
    (s.cfg.mtu < s.cmd.lengthOf s.cfg ∧ t = s.raiseFatal) ∨
    (s.cmd.lengthOf s.cfg ≤ s.cfg.mtu ∧ s.cmd.lengthOf s.cfg ≤ s.cmd.payload.length ∧
      t = (s.emit (sendImage mode s.cfg.term (s.cmd.payload.take (s.cmd.lengthOf s.cfg)))).finish (.bytesSent (s.cmd.lengthOf s.cfg))) := by
  unfold sendBytes at h
  dsimp only at h
  split at h
  · rename_i hl
    exact .inl ⟨hl, by cases h; rfl⟩
  · rename_i hl
    split at h
    · cases h
    · rename_i hp
      exact .inr ⟨by omega, by omega, by cases h; rfl⟩

/-- A `send` that does not answer a next state has a payload shorter than its length. -/
theorem sendBytes_total (s : State) (mode : Mode) :
    (∃ t, sendBytes s mode = .next t) ∨
    (sendBytes s mode = .refused .payloadShort ∧ s.cmd.payload.length < s.cmd.lengthOf s.cfg) := by
  unfold sendBytes
  dsimp only
  split
  · exact .inl ⟨_, rfl⟩
  · split
    · rename_i hp
      exact .inr ⟨rfl, hp⟩
    · exact .inl ⟨_, rfl⟩

/-- When the command at the port is a `send` that goes out. -/
theorem State.sending_eq_true (s : State) :
    s.sending = true ↔
      s.ready = true ∧ s.cmd.op = .send ∧ s.cmd.lengthOf s.cfg ≤ s.cfg.mtu ∧
        s.cmd.lengthOf s.cfg ≤ s.cmd.payload.length := by
  simp [State.sending, and_assoc]

/-- Reset leaves the first bytes of a `send` that goes out on the wire. -/
theorem State.cutOff_of_sending {s : State} (h : s.sending = true) :
    s.cutOff = (sendImage s.cfg.mode s.cfg.term (s.cmd.payload.take (s.cmd.lengthOf s.cfg))).take s.cut := by
  simp [State.cutOff, h]

/-- Where no `send` goes out reset leaves nothing on the wire. -/
theorem State.cutOff_of_not_sending {s : State} (h : s.sending = false) : s.cutOff = [] := by
  simp [State.cutOff, h]

/-- `ready` is a function of two registers only (rule R38). -/
theorem State.ready_eq_true (s : State) : s.ready = true ↔ s.suState = .operational ∧ s.fault = false := by
  simp [State.ready]

/-- `CW`-bit readings stay below `2^CW` (rule R15). -/
theorem State.now_lt (s : State) : s.now < 2 ^ s.cfg.cw :=
  Nat.mod_lt _ (Nat.two_pow_pos _)

end Sys2Proof.Machine
end

