-- ==== Sys2Proof/Laws/Clock.lean ====
section
/-! SUPPORT. The clock difference as arithmetic on integers (rule R141), what a well-formed configuration says, and what
reset and the release of reset leave. -/

namespace Sys2Proof.Machine

open Sys2Proof Sys2Proof.Safety

/-- `toSigned_CW(a -_CW b)` is the balanced remainder of the difference. -/
theorem clockDiff_eq_bmod (cw a b : Nat) : clockDiff cw a b = ((a : Int) - b).bmod (2 ^ cw) := by
  unfold clockDiff
  rw [BitVec.toInt_sub, BitVec.toInt_ofNat', BitVec.toInt_ofNat']
  simp

/-- Only the low `CW` bits of the two readings count. -/
theorem clockDiff_mod (cw a b : Nat) : clockDiff cw (a % 2 ^ cw) (b % 2 ^ cw) = clockDiff cw a b := by
  unfold clockDiff
  congr 2 <;> (apply BitVec.eq_of_toNat_eq; simp)

/-- What a well-formed configuration says, condition by condition. -/
theorem Config.wf_conditions {c : Config} (h : c.wf = true) :
    1 ≤ c.mtu ∧ (c.mode = .packet → c.mtu ≤ 255) ∧ termSafe c.mtu c.term = true ∧ 14 ≤ c.cw ∧
      c.mtu + 1 ≤ 2 ^ c.lenw - 1 := by
  simp only [Config.wf, Bool.and_eq_true, Bool.or_eq_true, decide_eq_true_eq] at h
  obtain ⟨⟨⟨⟨h1, h2⟩, h3⟩, h4⟩, h5⟩ := h
  refine ⟨h1, fun hm => ?_, h3, h4, h5⟩
  rcases h2 with h2 | h2
  · simp [hm] at h2
  · exact h2

/-- The receiver after reset meets its part of the invariant, for every `MTU`. -/
theorem rxInv_reset (mtu : Nat) : RxInv mtu Rx.reset := by
  constructor <;> simp [Rx.reset, Mem.wf, Mem.below]

/-- The memories of the state after reset are in canonical form and hold nothing. -/
theorem State.reset_memories_wf : State.reset.rx.buf.wf = true ∧ State.reset.hostBuf.wf = true := by
  decide

/-- Reset leaves the memories in canonical form. -/
theorem State.applyReset_memories_wf (s : State) (h : s.hostBuf.wf = true) :
    s.applyReset.rx.buf.wf = true ∧ s.applyReset.hostBuf.wf = true :=
  ⟨rfl, h⟩

/-- At the release of reset the entry clock is the reading of that moment. -/
theorem State.sample_release {s : State} (h : s.rst = true) (h' : s.sample.rst = false) :
    s.sample.suTEntry = s.sample.now := by
  unfold State.sample at *
  split at h'
  · rename_i hi
    simp [State.arrive, State.quietInput, h, State.now]
  · rename_i i rest hi
    have : i.rst = false := by
      revert h'
      unfold State.arrive
      split <;> exact id
    simp [State.arrive, h, this, State.now]

end Sys2Proof.Machine
end

