-- ==== Sys2Proof/Laws/Decode.lean ====
section
/-! SUPPORT. The decode tables read directly on state, input byte, mode and command, without the key's bits in between. -/

namespace Sys2Proof.Machine

open Sys2Proof

/-- The receiver's row for a state and a byte (rule R107). -/
def receiverRow (mtu : Nat) (remaining : Byte) (st : RxState) (b : Byte) : Instr :=
  match st with
  | .idle => if b = syncByte1 then .rxSync1 else .rxSkip b
  | .sawFirstSync => if b = syncByte2 then .rxSync2 else .rxResync b
  | .sawSecondSync => if legalLength mtu b then .rxLen b else .rxBadlen b
  | .readingPayload => if 1 < remaining.toNat then .rxData b else .rxLast b

/-- The startup controller's row (rule R109). -/
def startupRow (st : SuState) (expired avail : Bool) : Instr :=
  match st with
  | .waitInput => if expired then .suExpireWait else if avail then .suFirst else .suHoldWait
  | .drainInput => if expired then .suExpireDrain else if avail then .suDrain else .suHoldDrain
  | .operational => .suDone

/-- The host command's row (rule R111). -/
def commandRow (m : Mode) (op : CmdOp) : Instr :=
  match op, m with
  | .nop, _ => .nop
  | .send, .packet => .sendP
  | .send, .stream => .sendS
  | .poll, .packet => .pollP
  | .poll, .stream => .pollS
  | .wait, _ => .wait

theorem RxState.ofCode_code (st : RxState) : RxState.ofCode st.code = st := by cases st <;> rfl

theorem SuState.ofCode_code (st : SuState) : SuState.ofCode st.code = some st := by cases st <;> rfl

theorem CmdOp.ofCode_code (op : CmdOp) : CmdOp.ofCode op.code = op := by cases op <;> rfl

theorem Mode.ofCode_code (m : Mode) : Mode.ofCode m.code = m := by cases m <;> rfl

/-- A receiver key, bit by bit: the byte below, the state code above. -/
theorem keyK_bit (st : RxState) (b : Byte) (i : Nat) :
    (keyK st b).getLsbD i = if i < 8 then b.getLsbD i else st.code.getLsbD (i - 8) :=
  (BitVec.getLsbD_append (x := st.code) (y := b) (i := i)).trans (by cases decide (i < 8) <;> simp)

/-- The state code of a receiver key. -/
theorem keyK_state (st : RxState) (b : Byte) : (keyK st b).extractLsb' 8 2 = st.code := by
  apply BitVec.eq_of_getLsbD_eq
  intro i hi
  simp [keyK_bit, hi]

/-- The byte of a receiver key. -/
theorem keyK_byte (st : RxState) (b : Byte) : (keyK st b).extractLsb' 0 8 = b := by
  apply BitVec.eq_of_getLsbD_eq
  intro i hi
  simp [keyK_bit, hi]

theorem decodeK_keyK (mtu : Nat) (remaining : Byte) (st : RxState) (b : Byte) :
    decodeK mtu remaining (keyK st b) = receiverRow mtu remaining st b := by
  simp only [decodeK, keyK_state, keyK_byte, RxState.ofCode_code]
  rfl

theorem decodeS_keyS (st : SuState) (expired avail : Bool) :
    decodeS (keyS st expired avail) = .ok (startupRow st expired avail) := by
  cases st <;> cases expired <;> cases avail <;> rfl

theorem decodeH_keyH (m : Mode) (op : CmdOp) : decodeH (keyH m op) = commandRow m op := by
  cases m <;> cases op <;> rfl

end Sys2Proof.Machine
end

