-- ==== Sys2Proof/Laws/Mem.lean ====
section
/-! SUPPORT. The laws of a byte memory: a read after a write, the other addresses left alone, the canonical form and the
bound kept. -/

namespace Sys2Proof.Machine

theorem Mem.read_write_same (m : Mem) (i : Nat) (v : Byte) : (m.write i v).read i = some v := by
  induction m with
  | nil => simp [Mem.write, Mem.read]
  | cons c m ih =>
    unfold Mem.write
    split
    · simp [Mem.read]
    · split
      · simp [Mem.read]
      · rename_i h
        simp [Mem.read, ih, Ne.symm h]

theorem Mem.read_write_other (m : Mem) (i j : Nat) (v : Byte) (h : j ≠ i) : (m.write i v).read j = m.read j := by
  induction m with
  | nil => simp [Mem.write, Mem.read, Ne.symm h]
  | cons c m ih =>
    unfold Mem.write
    split
    · simp [Mem.read, Ne.symm h]
    · split
      · rename_i h'
        subst h'
        simp [Mem.read, Ne.symm h]
      · simp [Mem.read, ih]

theorem Mem.read_write (m : Mem) (i j : Nat) (v : Byte) :
    (m.write i v).read j = if j = i then some v else m.read j := by
  split
  · rename_i h
    rw [h, Mem.read_write_same]
  · rename_i h
    exact Mem.read_write_other m i j v h

/-- The canonical form, said pair by pair. -/
theorem Mem.wf_cons (c : Host.Cell) (m : Mem) :
    Mem.wf (c :: m) = true ↔ (∀ d, m.head? = some d → c.1 < d.1) ∧ m.wf = true := by
  cases m <;> simp [Mem.wf, Mem.unlisted]

/-- The first address of a memory after a write is the written one or the old first one. -/
theorem Mem.head_write (m : Mem) (i : Nat) (v : Byte) (d : Host.Cell) (h : (m.write i v).head? = some d) :
    d.1 = i ∨ m.head? = some d := by
  cases m with
  | nil => simp [Mem.write] at h; simp [← h]
  | cons c m =>
    unfold Mem.write at h
    split at h
    · simp at h; simp [← h]
    · split at h
      · simp at h; simp [← h]
      · exact .inr h

theorem Mem.wf_write (m : Mem) (i : Nat) (v : Byte) (h : m.wf = true) : (m.write i v).wf = true := by
  induction m with
  | nil => simp [Mem.write, Mem.wf, Mem.unlisted]
  | cons c m ih =>
    rw [Mem.wf_cons] at h
    unfold Mem.write
    split
    · rename_i hlt
      rw [Mem.wf_cons]
      exact ⟨by simpa using hlt, by rw [Mem.wf_cons]; exact h⟩
    · split
      · rename_i heq
        rw [Mem.wf_cons, heq]
        exact h
      · rename_i hge hne
        rw [Mem.wf_cons]
        refine ⟨fun d hd => ?_, ih h.2⟩
        rcases Mem.head_write m i v d hd with hi | hm
        · omega
        · exact h.1 d hm

theorem Mem.below_write (n : Nat) (m : Mem) (i : Nat) (v : Byte) (h : m.below n = true) (hi : i < n) :
    (m.write i v).below n = true := by
  induction m with
  | nil => simpa [Mem.write, Mem.below] using hi
  | cons c m ih =>
    simp only [Mem.below, List.all_cons, Bool.and_eq_true, decide_eq_true_eq] at h ih
    unfold Mem.write
    split
    · simp [Mem.below, hi, h.1]
      simpa using h.2
    · split
      · simp [Mem.below, hi]
        simpa using h.2
      · simp only [Mem.below, List.all_cons, Bool.and_eq_true, decide_eq_true_eq]
        exact ⟨h.1, ih h.2⟩

theorem Mem.wf_writeAll (m : Mem) (i : Nat) (bs : List Byte) (h : m.wf = true) : (m.writeAll i bs).wf = true := by
  induction bs generalizing m i with
  | nil => exact h
  | cons b bs ih => exact ih _ _ (Mem.wf_write m i b h)

/-- Bytes written from `i` on are read back in order; every other address is left alone. -/
theorem Mem.read_writeAll (m : Mem) (i j : Nat) (bs : List Byte) :
    (m.writeAll i bs).read j = if i ≤ j ∧ j < i + bs.length then bs[j - i]? else m.read j := by
  induction bs generalizing m i with
  | nil => simp [Mem.writeAll]
  | cons b bs ih =>
    simp only [Mem.writeAll, ih, Mem.read_write, List.length_cons]
    by_cases h1 : j = i
    · subst h1
      simp
    · by_cases h2 : i + 1 ≤ j ∧ j < i + 1 + bs.length
      · have : i ≤ j ∧ j < i + (bs.length + 1) := by omega
        obtain ⟨k, rfl⟩ : ∃ k, j = i + 1 + k := ⟨j - (i + 1), by omega⟩
        rw [if_pos h2, if_pos this, show i + 1 + k - i = k + 1 by omega, show i + 1 + k - (i + 1) = k by omega]
        simp
      · rw [if_neg h2, if_neg h1, if_neg (by omega)]

end Sys2Proof.Machine
end

