-- ==== Sys2Proof/Laws/Rx.lean ====
section
/-! SUPPORT. What one byte can do to the receiver, said once; that it keeps the receiver's invariant and never leaves the
buffer; and how a run and a poll split over a list of bytes. -/

namespace Sys2Proof.Machine

open Sys2Proof.Safety

/-- Storing a byte: it is defined exactly below `MTU`. -/
theorem Rx.append_eq_some {mtu : Nat} {b : Byte} {r q : Rx} (h : r.append mtu b = some q) :
    r.cursor.toNat < mtu ∧ q = { r with buf := r.buf.write r.cursor.toNat b, cursor := r.cursor + 1 } := by
  unfold Rx.append at h
  split at h
  · simp_all
  · simp at h

theorem Rx.append_of_lt {mtu : Nat} {b : Byte} {r : Rx} (h : r.cursor.toNat < mtu) :
    r.append mtu b = some { r with buf := r.buf.write r.cursor.toNat b, cursor := r.cursor + 1 } := by
  simp [Rx.append, h]

theorem Rx.data_of_lt {mtu : Nat} {b : Byte} {r : Rx} (h : r.cursor.toNat < mtu) :
    r.data mtu b = some ⟨.readingPayload, r.remaining - 1, r.cursor + 1, r.buf.write r.cursor.toNat b, r.accepted⟩ := by
  simp [Rx.data, Rx.append, h]

theorem Rx.last_of_lt {mtu : Nat} {b : Byte} {r : Rx} (h : r.cursor.toNat < mtu) :
    r.last mtu b = some ⟨.idle, 0, r.cursor + 1, r.buf.write r.cursor.toNat b, r.accepted⟩ := by
  simp [Rx.last, Rx.append, h]

theorem Rx.data_of_ge {mtu : Nat} {b : Byte} {r : Rx} (h : mtu ≤ r.cursor.toNat) : r.data mtu b = none := by
  simp [Rx.data, Rx.append, Nat.not_lt.mpr h]

theorem Rx.last_of_ge {mtu : Nat} {b : Byte} {r : Rx} (h : mtu ≤ r.cursor.toNat) : r.last mtu b = none := by
  simp [Rx.last, Rx.append, Nat.not_lt.mpr h]

theorem legalLength_iff (mtu : Nat) (l : Byte) : legalLength mtu l = true ↔ 1 ≤ l.toNat ∧ l.toNat ≤ mtu := by
  simp [legalLength]

/-- Everything `RxByte` can do (rule R190), row by row. -/
theorem Rx.byte_cases {mtu : Nat} {b : Byte} {r q : Rx} {done : Bool} (h : r.byte mtu b = some (q, done)) :
    (r.state = .idle ∧ b = syncByte1 ∧ q = r.sync1 ∧ done = false) ∨
    (r.state = .idle ∧ b ≠ syncByte1 ∧ q = r.skip ∧ done = false) ∨
    (r.state = .sawFirstSync ∧ b = syncByte2 ∧ q = r.sync2 ∧ done = false) ∨
    (r.state = .sawFirstSync ∧ b ≠ syncByte2 ∧ q = r.resync ∧ done = false) ∨
    (r.state = .sawSecondSync ∧ legalLength mtu b = true ∧ q = r.len b ∧ done = false) ∨
    (r.state = .sawSecondSync ∧ legalLength mtu b = false ∧ q = r.badlen ∧ done = false) ∨
    (r.state = .readingPayload ∧ 1 < r.remaining.toNat ∧ r.data mtu b = some q ∧ done = false) ∨
    (r.state = .readingPayload ∧ ¬ 1 < r.remaining.toNat ∧ r.last mtu b = some q ∧ done = true) := by
  unfold Rx.byte at h
  split at h <;> rename_i hs <;> split at h <;> rename_i hc <;>
    simp only [Option.some.injEq, Prod.mk.injEq, Option.map_eq_some_iff] at h
  · simp_all
  · simp_all
  · simp_all
  · simp_all
  · simp_all
  · simp_all
  · obtain ⟨a, ha, rfl, rfl⟩ := h
    simp_all
  · obtain ⟨a, ha, rfl, rfl⟩ := h
    simp_all

/-- In the invariant every byte has its transition (rules R107, R181). -/
theorem Rx.byte_isSome {mtu : Nat} (b : Byte) {r : Rx} (h : RxInv mtu r) : ∃ q done, r.byte mtu b = some (q, done) := by
  have hb := h.bound
  have hc := h.counting
  unfold Rx.byte
  split
  · split <;> simp
  · split <;> simp
  · split <;> simp
  · rename_i hs
    have : r.cursor.toNat < mtu := by have := hc.mp hs; omega
    split
    · simp [Rx.data_of_lt this]
    · simp [Rx.last_of_lt this]

/-- The cursor's increment does not wrap (rule R196). -/
theorem cursor_succ_toNat {mtu : Nat} {c : Byte} (h : c.toNat < mtu) (hm : mtu ≤ 255) :
    (c + 1).toNat = c.toNat + 1 := by
  rw [BitVec.toNat_add]
  simp
  omega

/-- The counter's decrement does not wrap (rule R196). -/
theorem remaining_pred_toNat {n : Byte} (h : 1 ≤ n.toNat) : (n - 1).toNat = n.toNat - 1 := by
  rw [BitVec.toNat_sub]
  have := n.isLt
  simp
  omega

/-- After a store every cell below the new cursor has a value. -/
theorem Rx.written_write {r : Rx} {b : Byte} (h : ∀ i, i < r.cursor.toNat → (r.buf.read i).isSome = true) :
    ∀ i, i < r.cursor.toNat + 1 → ((r.buf.write r.cursor.toNat b).read i).isSome = true := by
  intro i hi
  rw [Mem.read_write]
  split
  · rfl
  · exact h i (by omega)

/-- One byte keeps the receiver's invariant (rule R41), in packet mode's range of `MTU`. -/
theorem Rx.byte_keeps_inv {mtu : Nat} {b : Byte} {r q : Rx} {done : Bool} (hm : mtu ≤ 255) (hi : RxInv mtu r)
    (h : r.byte mtu b = some (q, done)) : RxInv mtu q := by
  obtain ⟨hlen, hb, hc, hw, hin, hwr⟩ := hi
  rcases Rx.byte_cases h with h | h | h | h | h | h | h | h
  · obtain ⟨hs, -, rfl, -⟩ := h
    exact ⟨hlen, hb, by simp_all [Rx.sync1], hw, hin, hwr⟩
  · obtain ⟨hs, -, rfl, -⟩ := h
    exact ⟨hlen, hb, by simp_all [Rx.skip], hw, hin, hwr⟩
  · obtain ⟨hs, -, rfl, -⟩ := h
    exact ⟨hlen, hb, by simp_all [Rx.sync2], hw, hin, hwr⟩
  · obtain ⟨hs, -, rfl, -⟩ := h
    exact ⟨hlen, hb, by simp_all [Rx.resync], hw, hin, hwr⟩
  · obtain ⟨hs, hl, rfl, -⟩ := h
    rw [legalLength_iff] at hl
    exact ⟨by simp [Rx.len], by simpa [Rx.len] using hl.2, by simpa [Rx.len] using hl.1, hw, hin, by simp [Rx.len]⟩
  · obtain ⟨hs, -, rfl, -⟩ := h
    exact ⟨hlen, hb, by simp_all [Rx.badlen], hw, hin, hwr⟩
  · obtain ⟨hs, hn, hd, -⟩ := h
    have hlt : r.cursor.toNat < mtu := by omega
    rw [Rx.data_of_lt hlt] at hd
    obtain rfl := (Option.some.inj hd).symm
    have h1 := cursor_succ_toNat hlt hm
    have h2 := remaining_pred_toNat (n := r.remaining) (by omega)
    refine ⟨?_, ?_, ?_, Mem.wf_write _ _ _ hw, Mem.below_write _ _ _ _ hin hlt, ?_⟩
    · show (r.cursor + 1).toNat + (r.remaining - 1).toNat = r.accepted.toNat
      omega
    · show (r.cursor + 1).toNat + (r.remaining - 1).toNat ≤ mtu
      omega
    · show _ ↔ 1 ≤ (r.remaining - 1).toNat
      simp only [true_iff]
      omega
    · show ∀ i, i < (r.cursor + 1).toNat → _
      rw [h1]
      exact Rx.written_write hwr
  · obtain ⟨hs, hn, hd, -⟩ := h
    have h0 := hc.mp hs
    have hlt : r.cursor.toNat < mtu := by omega
    rw [Rx.last_of_lt hlt] at hd
    obtain rfl := (Option.some.inj hd).symm
    have h1 := cursor_succ_toNat hlt hm
    refine ⟨?_, ?_, by simp, Mem.wf_write _ _ _ hw, Mem.below_write _ _ _ _ hin hlt, ?_⟩
    · show (r.cursor + 1).toNat + (0 : Byte).toNat = r.accepted.toNat
      simp
      omega
    · show (r.cursor + 1).toNat + (0 : Byte).toNat ≤ mtu
      simp
      omega
    · show ∀ i, i < (r.cursor + 1).toNat → _
      rw [h1]
      exact Rx.written_write hwr

/-- A completed frame leaves the receiver in `Idle` with a cursor that is not 0 (rules R189, R193). -/
theorem Rx.byte_done {mtu : Nat} {b : Byte} {r q : Rx} (hm : mtu ≤ 255) (h : r.byte mtu b = some (q, true)) :
    q.state = .idle ∧ q.cursor.toNat = r.cursor.toNat + 1 ∧ q.cursor.toNat ≤ mtu := by
  rcases Rx.byte_cases h with h | h | h | h | h | h | h | h
  case inr.inr.inr.inr.inr.inr.inr =>
    obtain ⟨-, -, hd, -⟩ := h
    have hlt : r.cursor.toNat < mtu := by
      by_contra hge
      rw [Rx.last_of_ge (by omega)] at hd
      simp at hd
    rw [Rx.last_of_lt hlt] at hd
    obtain rfl := (Option.some.inj hd).symm
    have h1 := cursor_succ_toNat hlt hm
    exact ⟨rfl, h1, by show (r.cursor + 1).toNat ≤ mtu; omega⟩
  all_goals simp at h

/-- A run over two lists is the run over the first and then over the second; the frames follow each other. -/
theorem Rx.run_append (mtu : Nat) (a b : List Byte) (r : Rx) :
    r.run mtu (a ++ b) =
      (r.run mtu a).bind fun x => (x.1.run mtu b).map fun y => (y.1, x.2 ++ y.2) := by
  induction a generalizing r with
  | nil => simp [Rx.run]
  | cons c a ih =>
    simp only [List.cons_append, Rx.run]
    cases hb : r.byte mtu c with
    | none => rfl
    | some x =>
      obtain ⟨q, done⟩ := x
      simp only [ih]
      cases ha : q.run mtu a with
      | none => rfl
      | some x =>
        obtain ⟨q', fs⟩ := x
        simp only [Option.bind_some]
        cases q'.run mtu b with
        | none => rfl
        | some y => cases done <;> simp

/-- A poll over bytes that complete no frame consumes all of them. -/
theorem Rx.poll_of_run_nil {mtu : Nat} {bs : List Byte} {r q : Rx} (h : r.run mtu bs = some (q, [])) :
    r.poll mtu bs = some (q, false, []) := by
  induction bs generalizing r with
  | nil => simp_all [Rx.run, Rx.poll]
  | cons b bs ih =>
    simp only [Rx.run] at h
    split at h
    · simp at h
    · rename_i p done hb
      split at h
      · simp at h
      · rename_i q' fs hr
        cases done
        · simp only [Bool.false_eq_true, if_false, Option.some.injEq, Prod.mk.injEq] at h
          obtain ⟨rfl, rfl⟩ := h
          simp [Rx.poll, hb, ih hr]
        · simp at h

/-- A poll stops at the byte that completes a frame and leaves the bytes after it. -/
theorem Rx.poll_of_run_done {mtu : Nat} {a q : List Byte} {b : Byte} {r p p' : Rx} (h : r.run mtu a = some (p, []))
    (hb : p.byte mtu b = some (p', true)) : r.poll mtu (a ++ b :: q) = some (p', true, q) := by
  induction a generalizing r with
  | nil =>
    simp only [Rx.run, Option.some.injEq, Prod.mk.injEq, and_true] at h
    subst h
    simp [Rx.poll, hb]
  | cons c a ih =>
    simp only [Rx.run] at h
    split at h
    · simp at h
    · rename_i x done hc
      split at h
      · simp at h
      · rename_i q' fs hr
        cases done
        · simp only [Bool.false_eq_true, if_false, Option.some.injEq, Prod.mk.injEq] at h
          obtain ⟨rfl, rfl⟩ := h
          simp [Rx.poll, hc, ih hr]
        · simp at h

/-- What a poll can answer in the invariant: it always answers, in the invariant again; where it stopped at a frame the
receiver is in `Idle` and the frame is not empty. -/
theorem Rx.poll_answers {mtu : Nat} (hm : mtu ≤ 255) (bs : List Byte) {r : Rx} (h : RxInv mtu r) :
    ∃ q done rest, r.poll mtu bs = some (q, done, rest) ∧ RxInv mtu q ∧
      (done = true → q.state = .idle ∧ 1 ≤ q.cursor.toNat) ∧ (done = false → rest = []) ∧
      ∃ taken, bs = taken ++ rest := by
  induction bs generalizing r with
  | nil => exact ⟨r, false, [], by simp [Rx.poll], h, by simp, by simp, [], by simp⟩
  | cons b bs ih =>
    obtain ⟨q, done, hb⟩ := Rx.byte_isSome b h
    have hq := Rx.byte_keeps_inv hm h hb
    cases done
    · obtain ⟨q', d, rest, hp, hi, h1, h2, taken, rfl⟩ := ih hq
      exact ⟨q', d, rest, by simp [Rx.poll, hb, hp], hi, h1, h2, b :: taken, by simp⟩
    · have hd := Rx.byte_done hm hb
      exact ⟨q, true, bs, by simp [Rx.poll, hb], hq, fun _ => ⟨hd.1, by omega⟩, by simp, [b], by simp⟩

/-- What a poll answers wherever it answers: the bytes it leaves are the tail of those it was given. -/
theorem Rx.poll_rest {mtu : Nat} {bs rest : List Byte} {r q : Rx} {done : Bool} (h : r.poll mtu bs = some (q, done, rest)) :
    ∃ taken, bs = taken ++ rest := by
  induction bs generalizing r with
  | nil => simp_all [Rx.poll]
  | cons b bs ih =>
    simp only [Rx.poll] at h
    split at h
    · simp at h
    · simp only [Option.some.injEq, Prod.mk.injEq] at h
      obtain ⟨-, -, rfl⟩ := h
      exact ⟨[b], by simp⟩
    · obtain ⟨taken, rfl⟩ := ih h
      exact ⟨b :: taken, by simp⟩

/-- Storing a byte makes the frame so far one byte longer. -/
theorem Rx.frame_stored {mtu : Nat} {b : Byte} {r q : Rx} (hm : mtu ≤ 255) (hc : r.cursor.toNat < mtu)
    (h1 : q.cursor = r.cursor + 1) (h2 : q.buf = r.buf.write r.cursor.toNat b) : q.frame = r.frame ++ [some b] := by
  unfold Rx.frame
  rw [h1, cursor_succ_toNat hc hm, List.range_succ, List.map_append, h2]
  congr 1
  · apply List.map_congr_left
    intro a ha
    rw [Mem.read_write, if_neg]
    simp at ha
    omega
  · simp [Mem.read_write]

end Sys2Proof.Machine
end

