-- ==== Sys2Proof/Laws/Step.lean ====
section
/-! SUPPORT. What a step is, said once: which row runs, and in which state. Every later proof cites `step_cases` or one of
the four equations and does not unfold the fetch or the decoder. -/

namespace Sys2Proof.Machine

open Sys2Proof

/-- Where reset is applied the step is `CREATE`. -/
theorem step_reset {s : State} (h : s.sample.rst = true) : step s = exec .create s.sample := by
  simp [step, State.fetch, h, decode]

/-- With no command presented the step is the startup controller's row. -/
theorem step_startup {s : State} (h : s.sample.rst = false) (hc : s.sample.cmds = []) :
    step s = exec (startupRow s.suState s.sample.expired s.sample.rxAvail) s.sample := by
  simp [step, State.fetch, h, hc, decode, decodeS_keyS]

/-- A command at the port that is not a packet poll finding a byte: the step is the command's row. -/
theorem step_command {s : State} {c : Command} {cs : List Command} (h : s.sample.rst = false)
    (hc : s.sample.cmds = c :: cs) (hp : s.sample.pollingByBytes = false ∨ s.sample.rxq = []) :
    step s = exec (commandRow s.cfg.mode c.op) s.sample := by
  rcases hp with hp | hq
  · simp [step, State.fetch, h, hc, hp, decode, decodeH_keyH]
  · cases hp : s.sample.pollingByBytes <;> simp [step, State.fetch, h, hc, hp, hq, decode, decodeH_keyH]

/-- A packet poll taken per byte that finds a byte waiting: the step is the receiver's row for it. -/
theorem step_byte {s : State} {b : Byte} {q : List Byte} (h : s.sample.rst = false) (hc : s.sample.cmds ≠ [])
    (hp : s.sample.pollingByBytes = true) (hq : s.sample.rxq = b :: q) :
    step s = exec (receiverRow s.cfg.mtu s.rx.remaining s.rx.state b) (s.sample.releaseFrame.setRxq q) := by
  obtain ⟨c, cs, hcs⟩ := List.exists_cons_of_ne_nil hc
  simp [step, State.fetch, h, hcs, hp, hq, decode, decodeK_keyK]

/-- What a step can be: one of four, with everything each needs. -/
theorem step_cases (s : State) :
    (s.sample.rst = true ∧ step s = exec .create s.sample) ∨
    (s.sample.rst = false ∧ s.sample.cmds = [] ∧
      step s = exec (startupRow s.suState s.sample.expired s.sample.rxAvail) s.sample) ∨
    (s.sample.rst = false ∧ (∃ c cs, s.sample.cmds = c :: cs ∧
      (s.sample.pollingByBytes = false ∨ s.sample.rxq = []) ∧
      step s = exec (commandRow s.cfg.mode c.op) s.sample)) ∨
    (s.sample.rst = false ∧ s.sample.cmds ≠ [] ∧ s.sample.pollingByBytes = true ∧ ∃ b q, s.sample.rxq = b :: q ∧
      step s = exec (receiverRow s.cfg.mtu s.rx.remaining s.rx.state b) (s.sample.releaseFrame.setRxq q)) := by
  cases h : s.sample.rst with
  | true => exact .inl ⟨rfl, step_reset h⟩
  | false =>
    cases hc : s.sample.cmds with
    | nil => exact .inr (.inl ⟨rfl, rfl, step_startup h hc⟩)
    | cons c cs =>
      cases hp : s.sample.pollingByBytes with
      | false => exact .inr (.inr (.inl ⟨rfl, c, cs, rfl, .inl rfl, step_command h hc (.inl hp)⟩))
      | true =>
        cases hq : s.sample.rxq with
        | nil => exact .inr (.inr (.inl ⟨rfl, c, cs, rfl, .inr rfl, step_command h hc (.inr hq)⟩))
        | cons b q =>
          exact .inr (.inr (.inr ⟨rfl, by simp, rfl, b, q, rfl, step_byte h (by simp [hc]) hp hq⟩))

end Sys2Proof.Machine
end

