-- ==== Sys2Proof/Laws/Exec.lean ====
section
/-! SUPPORT. What an instruction can do, said once for each decode table, whichever row runs: the startup table, the
receiver table, the host command table; and then what a step can do. -/

namespace Sys2Proof.Machine

open Sys2Proof

/-- The startup table's row answers a next state in three ways: nothing changed, the timeout was reached, or one byte was
thrown away. -/
theorem exec_startup_next {s t : State} {st : SuState} {e a : Bool} (h : exec (startupRow st e a) s = .next t) :
    t = s ∨
    (st ≠ .operational ∧ e = true ∧ t = s.enterSu .operational) ∨
    (st ≠ .operational ∧ e = false ∧ a = true ∧ ∃ b q, s.rxq = b :: q ∧
      t = State.enterSu { s with rxq := q, drained := s.drained + 1 } .drainInput) := by
  cases st <;> simp only [startupRow] at h
  · cases e
    · cases a
      · cases h; simp
      · exact .inr (.inr ⟨by simp, rfl, rfl, drainByte_next (f := fun t => t.enterSu .drainInput) h⟩)
    · cases h; simp
  · cases e
    · cases a
      · cases h; simp
      · exact .inr (.inr ⟨by simp, rfl, rfl, drainByte_next (f := fun t => t.enterSu .drainInput) h⟩)
    · cases h; simp
  · cases h; simp

/-- The startup table's row always answers, where its key's `avail` is the truth. -/
theorem exec_startup_total (s : State) (st : SuState) (e : Bool) : ∃ t, exec (startupRow st e s.rxAvail) s = .next t := by
  cases st <;> cases e <;> simp only [startupRow, Bool.false_eq_true, if_false, if_true]
  · cases hq : s.rxq with
    | nil => simp [State.rxAvail, hq, exec, execSuHoldWait]
    | cons b q => simp [State.rxAvail, hq, exec, execSuFirst, drainByte]
  · exact ⟨_, rfl⟩
  · cases hq : s.rxq with
    | nil => simp [State.rxAvail, hq, exec, execSuHoldDrain]
    | cons b q => simp [State.rxAvail, hq, exec, execSuDrain, drainByte]
  · exact ⟨_, rfl⟩
  · exact ⟨_, rfl⟩
  · exact ⟨_, rfl⟩

/-- The receiver table's row is `RxByte` (rule R190): it answers a next state exactly where that is defined, and reports
the frame where it says `done`. -/
theorem exec_receiver (s : State) (b : Byte) :
    exec (receiverRow s.cfg.mtu s.rx.remaining s.rx.state b) s =
      match s.rx.byte s.cfg.mtu b with
      | none => .fault .rxBufIndex
      | some (r, true) => .next (s.setRx r).reportFrame
      | some (r, false) => .next (s.setRx r) := by
  cases hs : s.rx.state
  · by_cases hb : b = syncByte1 <;> simp [receiverRow, Rx.byte, hs, hb, exec, execRxSync1, execRxSkip]
  · by_cases hb : b = syncByte2 <;> simp [receiverRow, Rx.byte, hs, hb, exec, execRxSync2, execRxResync]
  · cases hl : legalLength s.cfg.mtu b <;> simp [receiverRow, Rx.byte, hs, hl, exec, execRxLen, execRxBadlen]
  · by_cases hn : 1 < s.rx.remaining.toNat
    · cases h : s.rx.data s.cfg.mtu b <;> simp [receiverRow, Rx.byte, hs, hn, h, exec, execRxData]
    · cases h : s.rx.last s.cfg.mtu b <;> simp [receiverRow, Rx.byte, hs, hn, h, exec, execRxLast]

/-- Where a receiver row answers a next state. -/
theorem exec_receiver_next {s t : State} {b : Byte}
    (h : exec (receiverRow s.cfg.mtu s.rx.remaining s.rx.state b) s = .next t) :
    ∃ r done, s.rx.byte s.cfg.mtu b = some (r, done) ∧ t = if done then (s.setRx r).reportFrame else s.setRx r := by
  rw [exec_receiver] at h
  split at h
  · cases h
  · rename_i r hb
    exact ⟨r, true, hb, by cases h; rfl⟩
  · rename_i r hb
    exact ⟨r, false, hb, by cases h; rfl⟩

/-- A packet poll answers a next state in two ways: it was turned away, or the capacity was enough and the loop of rule R191
answered. -/
theorem execPollP_next {s t : State} (h : execPollP s = .next t) :
    (s.ready = false ∧ t = s.finish (.refused s.whyTurnedAway)) ∨
    (s.ready = true ∧ s.cfg.mtu ≤ s.cmd.capacity ∧ ∃ r done q, s.rx.poll s.cfg.mtu s.rxq = some (r, done, q) ∧
      t = if done then ((s.releaseFrame.setRxq q).setRx r).reportFrame
          else ((s.releaseFrame.setRxq q).setRx r).finish (.bytesReceived 0 .peer)) := by
  rcases whenReady_next h with ⟨hr, h⟩ | h
  · refine .inr ⟨hr, ?_⟩
    split at h
    · cases h
    · rename_i hc
      refine ⟨by omega, ?_⟩
      split at h
      · cases h
      · rename_i r q hp
        exact ⟨r, true, q, hp, by cases h; rfl⟩
      · rename_i r q hp
        exact ⟨r, false, q, hp, by cases h; rfl⟩
  · exact .inl h

/-- Where the loop of rule R191 answers, an accepted packet poll with enough capacity answers a next state. -/
theorem execPollP_of_poll {s : State} {r : Rx} {done : Bool} {q : List Byte} (hr : s.ready = true)
    (hc : s.cfg.mtu ≤ s.cmd.capacity) (hp : s.rx.poll s.cfg.mtu s.rxq = some (r, done, q)) :
    execPollP s = .next
      (if done then ((s.releaseFrame.setRxq q).setRx r).reportFrame
       else ((s.releaseFrame.setRxq q).setRx r).finish (.bytesReceived 0 .peer)) := by
  rw [execPollP, whenReady_ready hr, if_neg (by omega), hp]
  cases done <;> rfl

/-- The host command table's row answers a next state in these ways: `NOP`; turned away; the fault; the bytes of a send; a
packet poll; a stream poll; `WAIT`. -/
theorem exec_command_next {s t : State} {op : CmdOp} (h : exec (commandRow s.cfg.mode op) s = .next t) :
    (op = .nop ∧ t = { s with cmds := s.cmds.tail }) ∨
    (op ≠ .nop ∧ s.ready = false ∧ t = s.finish (.refused s.whyTurnedAway)) ∨
    (op = .send ∧ s.ready = true ∧ s.cfg.mtu < s.cmd.lengthOf s.cfg ∧ t = s.raiseFatal) ∨
    (op = .send ∧ s.ready = true ∧ s.cmd.lengthOf s.cfg ≤ s.cfg.mtu ∧ s.cmd.lengthOf s.cfg ≤ s.cmd.payload.length ∧
      t = (s.emit (sendImage s.cfg.mode s.cfg.term (s.cmd.payload.take (s.cmd.lengthOf s.cfg)))).finish
        (.bytesSent (s.cmd.lengthOf s.cfg))) ∨
    (op = .poll ∧ s.ready = true ∧ s.cfg.mode = .packet ∧ s.cfg.mtu ≤ s.cmd.capacity ∧ ∃ r done q, s.rx.poll s.cfg.mtu s.rxq = some (r, done, q) ∧
      t = if done then ((s.releaseFrame.setRxq q).setRx r).reportFrame
          else ((s.releaseFrame.setRxq q).setRx r).finish (.bytesReceived 0 .peer)) ∨
    (op = .poll ∧ s.ready = true ∧ s.cfg.mode = .stream ∧
      t = State.finish
        { s.releaseFrame with
          rxq := s.rxq.drop (s.cmd.capacityOf s.cfg)
          hostBuf := s.hostBuf.writeAll 0 (s.rxq.take (s.cmd.capacityOf s.cfg)) }
        (.bytesReceived (s.rxq.take (s.cmd.capacityOf s.cfg)).length .peer)) ∨
    (op = .wait ∧ s.ready = true ∧ t = s.finish (.hasData s.rxAvail)) := by
  cases op
  · cases h
    simp
  · have h' : whenReady s (sendBytes s s.cfg.mode) = .next t := by
      cases hm : s.cfg.mode <;> rw [hm] at h <;> exact h
    rcases whenReady_next h' with ⟨hr, h⟩ | ⟨hr, rfl⟩
    · rcases sendBytes_next h with ⟨hl, rfl⟩ | ⟨hl, hp, rfl⟩
      · exact .inr (.inr (.inl ⟨rfl, hr, hl, rfl⟩))
      · exact .inr (.inr (.inr (.inl ⟨rfl, hr, hl, hp, rfl⟩)))
    · exact .inr (.inl ⟨by simp, hr, rfl⟩)
  · cases hm : s.cfg.mode <;> rw [hm] at h
    · rcases execPollP_next h with ⟨hr, rfl⟩ | ⟨hr, h⟩
      · exact .inr (.inl ⟨by simp, hr, rfl⟩)
      · exact .inr (.inr (.inr (.inr (.inl ⟨rfl, hr, rfl, h⟩))))
    rcases whenReady_next h with ⟨hr, h⟩ | ⟨hr, rfl⟩
    · exact .inr (.inr (.inr (.inr (.inr (.inl ⟨rfl, hr, rfl, by cases h; rfl⟩)))))
    · exact .inr (.inl ⟨by simp, hr, rfl⟩)
  · rcases whenReady_next h with ⟨hr, h⟩ | ⟨hr, rfl⟩
    · exact .inr (.inr (.inr (.inr (.inr (.inr ⟨rfl, hr, by cases h; rfl⟩)))))
    · exact .inr (.inl ⟨by simp, hr, rfl⟩)

/-- The state a receiver row runs in has the sampled state's registers. -/
theorem exec_byte_next {s t : State} {b : Byte} {q : List Byte}
    (h : exec (receiverRow s.cfg.mtu s.rx.remaining s.rx.state b) (s.sample.releaseFrame.setRxq q) = .next t) :
    ∃ r done, s.rx.byte s.cfg.mtu b = some (r, done) ∧
      t = if done then ((s.sample.releaseFrame.setRxq q).setRx r).reportFrame
          else (s.sample.releaseFrame.setRxq q).setRx r := by
  have e1 : (s.sample.releaseFrame.setRxq q).cfg = s.cfg := by simp
  have e2 : (s.sample.releaseFrame.setRxq q).rx = s.rx := by simp
  generalize hu : s.sample.releaseFrame.setRxq q = u at *
  have := exec_receiver_next (s := u) (t := t) (b := b) (by rw [e1, e2]; exact h)
  rw [e1, e2] at this
  exact this

/-- A packet poll is in progress byte by byte exactly under these conditions. -/
theorem State.pollingByBytes_eq_true (s : State) :
    s.pollingByBytes = true ↔
      s.pollGrain = .perByte ∧ s.cfg.mode = .packet ∧ s.cmd.op = .poll ∧ s.suState = .operational ∧ s.fault = false ∧
        s.cfg.mtu ≤ s.cmd.capacity := by
  simp [State.pollingByBytes, State.ready]
  tauto

/-- The command at the port is the oldest one presented. -/
theorem State.cmd_of_cons {s : State} {c : Command} {cs : List Command} (h : s.cmds = c :: cs) : s.cmd = c := by
  simp [State.cmd, h]

/-- `ready` is not changed by a sample of the ports. -/
@[simp] theorem State.sample_ready (s : State) : s.sample.ready = s.ready := by
  simp [State.ready]

/-- Everything a step that answers a next state can have done. -/
theorem step_next {s t : State} (h : step s = .next t) :
    (s.sample.rst = true ∧ t = s.sample.applyReset) ∨
    (s.sample.rst = false ∧ s.sample.cmds = [] ∧
      (t = s.sample ∨
        (s.suState ≠ .operational ∧ s.sample.expired = true ∧ t = s.sample.enterSu .operational) ∨
        (s.suState ≠ .operational ∧ s.sample.expired = false ∧ ∃ b q, s.sample.rxq = b :: q ∧
          t = State.enterSu { s.sample with rxq := q, drained := s.drained + 1 } .drainInput))) ∨
    (s.sample.rst = false ∧ (∃ c cs, s.sample.cmds = c :: cs ∧ s.sample.cmd = c ∧
      (s.sample.pollingByBytes = false ∨ s.sample.rxq = []) ∧
      exec (commandRow s.sample.cfg.mode c.op) s.sample = .next t)) ∨
    (s.sample.rst = false ∧ s.sample.cmds ≠ [] ∧ s.sample.pollingByBytes = true ∧ ∃ b q, s.sample.rxq = b :: q ∧
      ∃ r done, s.rx.byte s.cfg.mtu b = some (r, done) ∧
        t = if done then ((s.sample.releaseFrame.setRxq q).setRx r).reportFrame
            else (s.sample.releaseFrame.setRxq q).setRx r) := by
  rcases step_cases s with ⟨hr, e⟩ | ⟨hr, hc, e⟩ | ⟨hr, c, cs, hc, hp, e⟩ | ⟨hr, hc, hp, b, q, hq, e⟩ <;> rw [e] at h
  · exact .inl ⟨hr, by cases h; rfl⟩
  · refine .inr (.inl ⟨hr, hc, ?_⟩)
    rcases exec_startup_next h with h | h | ⟨h1, h2, -, h3⟩
    · exact .inl h
    · exact .inr (.inl h)
    · exact .inr (.inr ⟨h1, h2, by simpa using h3⟩)
  · exact .inr (.inr (.inl ⟨hr, c, cs, hc, State.cmd_of_cons hc, hp, by simpa using h⟩))
  · exact .inr (.inr (.inr ⟨hr, hc, hp, b, q, hq, exec_byte_next h⟩))

end Sys2Proof.Machine
end

