-- ==== Sys2Proof/Laws/PerInstr.lean ====
section
/-! SUPPORT. One family of statements over the instructions as syntax, one lemma per constructor. -/

namespace Sys2Proof.Laws.Row

open Sys2Proof Sys2Proof.Machine

/-- The encoder writes the row of opcode_table.json: the key of the instruction has the row's width and meets its `match`
and `mask`, which the decoder tests (rule R119). -/
def Statement (i : Instr) : Prop :=
  (encode i).width = (tableRow i).width ∧ (tableRow i).selects (encode i) = true

/-- A receiver key's number: the state code times 256, and the byte. -/
theorem keyK_toNat (st : RxState) (b : Byte) : (keyK st b).toNat = st.code.toNat <<< 8 ||| b.toNat :=
  BitVec.toNat_append _ _

/-- The state code of a receiver key is what a mask of the upper two bits shows. -/
theorem keyK_masked (st : RxState) (b : Byte) : (keyK st b).toNat &&& 0x300 = st.code.toNat <<< 8 := by
  have low : b.toNat &&& 0x300 = 0 := by
    apply Nat.eq_of_testBit_eq
    intro i
    by_cases h : i < 8
    · have : (0x300 : Nat).testBit i = false := by interval_cases i <;> rfl
      simp [this]
    · simp [BitVec.testBit_toNat, BitVec.getLsbD_of_ge b i (by omega)]
  have high : st.code.toNat <<< 8 &&& 0x300 = st.code.toNat <<< 8 := by cases st <;> rfl
  rw [keyK_toNat, Nat.and_or_distrib_right, low, high, Nat.or_zero]

theorem rxSync1 : Statement .rxSync1 := by unfold Statement; decide
theorem rxSkip (b : Byte) : Statement (.rxSkip b) :=
  ⟨rfl, by simp only [TableRow.selects, tableRow, encode, Key.toNat, keyK_masked]; rfl⟩
theorem rxSync2 : Statement .rxSync2 := by unfold Statement; decide
theorem rxResync (b : Byte) : Statement (.rxResync b) :=
  ⟨rfl, by simp only [TableRow.selects, tableRow, encode, Key.toNat, keyK_masked]; rfl⟩
theorem rxLen (l : Byte) : Statement (.rxLen l) :=
  ⟨rfl, by simp only [TableRow.selects, tableRow, encode, Key.toNat, keyK_masked]; rfl⟩
theorem rxBadlen (l : Byte) : Statement (.rxBadlen l) :=
  ⟨rfl, by simp only [TableRow.selects, tableRow, encode, Key.toNat, keyK_masked]; rfl⟩
theorem rxData (b : Byte) : Statement (.rxData b) :=
  ⟨rfl, by simp only [TableRow.selects, tableRow, encode, Key.toNat, keyK_masked]; rfl⟩
theorem rxLast (b : Byte) : Statement (.rxLast b) :=
  ⟨rfl, by simp only [TableRow.selects, tableRow, encode, Key.toNat, keyK_masked]; rfl⟩
theorem suExpireWait : Statement .suExpireWait := by unfold Statement; decide
theorem suFirst : Statement .suFirst := by unfold Statement; decide
theorem suHoldWait : Statement .suHoldWait := by unfold Statement; decide
theorem suExpireDrain : Statement .suExpireDrain := by unfold Statement; decide
theorem suDrain : Statement .suDrain := by unfold Statement; decide
theorem suHoldDrain : Statement .suHoldDrain := by unfold Statement; decide
theorem suDone : Statement .suDone := by unfold Statement; decide
theorem nop : Statement .nop := by unfold Statement; decide
theorem sendP : Statement .sendP := by unfold Statement; decide
theorem sendS : Statement .sendS := by unfold Statement; decide
theorem pollP : Statement .pollP := by unfold Statement; decide
theorem pollS : Statement .pollS := by unfold Statement; decide
theorem wait : Statement .wait := by unfold Statement; decide
theorem create : Statement .create := by unfold Statement; decide

end Sys2Proof.Laws.Row
end

