-- ==== Sys2Proof/Tests/Slice0.lean ====
section
/-! SUPPORT. Tests of the model, each a named theorem. The expected results are those of spec/95_test_vectors.md (V1 to V44,
programs P1 to P6) and of the decode tables of spec/30_encoding.md; where a test has another source its comment says so. At
the end: for every statement with hypotheses a witness that meets them. -/

namespace Sys2Proof.Tests

open Sys2Proof Sys2Proof.Machine Sys2Proof.Safety

/-! ## Small states -/

/-- The configuration of the vectors: `MTU = 8`, `CW = 32`. -/
def cfgOf (mode : Mode) (term : List Byte) : Config :=
  { mode := mode, mtu := 8, term := term, cw := 32, lenw := 16, capw := 16 }

/-- `Operational`, nothing faulted, these bytes waiting and this command at the port. -/
def opState (mode : Mode) (term rxq : List Byte) (c : Command) : State :=
  { State.resetWith (cfgOf mode term) 0 rxq with suState := .operational, cmds := [c] }

/-- A send of these bytes. -/
def send (payload : List Byte) : Command :=
  { Command.idle with op := .send, length := payload.length, payload := payload }

/-- A send of this length, with as many zero bytes. -/
def sendLen (n : Nat) : Command :=
  { Command.idle with op := .send, length := n, payload := List.replicate n 0 }

/-- A poll with this capacity. -/
def poll (capacity : Nat) : Command :=
  { Command.idle with op := .poll, capacity := capacity }

/-- A wait. -/
def waitCmd : Command :=
  { Command.idle with op := .wait }

/-- `Operational` with this receiver. -/
def rxState (r : Rx) (rxq : List Byte) : State :=
  { opState .packet [] rxq (poll 8) with rx := r }

/-- A startup state entered at reading 0, the clock at `now`, these bytes waiting. -/
def suState (st : SuState) (now : Nat) (rxq : List Byte) : State :=
  { State.resetWith (cfgOf .packet []) 0 rxq with suState := st, clock := now }

/-- A field of the next state, where there is one. -/
def get {α : Type} (o : Host.Outcome State Fault Refusal) (f : State → α) : Option α :=
  match o with
  | .next t => some (f t)
  | .fault _ => none
  | .refused _ => none

/-! ## Well-formedness refuses each ill-formed term -/

theorem test_config_ok : (cfgOf .packet [0x0A]).wf = true ∧ Config.initial.wf = true := by decide
theorem test_config_mtu_zero : ({ cfgOf .packet [] with mtu := 0 } : Config).wf = false := by decide
theorem test_config_mtu_256_packet : ({ cfgOf .packet [] with mtu := 256 } : Config).wf = false := by decide
theorem test_config_mtu_300_stream : ({ cfgOf .stream [] with mtu := 300 } : Config).wf = true := by decide
theorem test_config_cw_13 :
    ({ cfgOf .packet [] with cw := 13 } : Config).wf = false ∧ ({ cfgOf .packet [] with cw := 14 } : Config).wf = true := by
  decide
theorem test_config_lenw_8 : ({ cfgOf .packet [] with mtu := 255, lenw := 8 } : Config).wf = false := by decide
/-- V44. -/
theorem test_termSafe :
    termSafe 8 [] = true ∧ termSafe 8 [0x0D, 0x0A] = true ∧ termSafe 8 [0xFF, 0xFF] = true ∧
    termSafe 8 [0xFF] = false ∧ termSafe 8 [0xFF, 0x55, 0x01, 0x00] = false := by decide
theorem test_config_term : (cfgOf .packet [0xFF]).wf = false := by decide
theorem test_wf_skip_ff : (Instr.rxSkip 0xFF).wf 8 0 = false := by decide
theorem test_wf_resync_55 : (Instr.rxResync 0x55).wf 8 0 = false := by decide
theorem test_wf_len : (Instr.rxLen 0).wf 8 0 = false ∧ (Instr.rxLen 9).wf 8 0 = false := by decide
theorem test_wf_badlen : (Instr.rxBadlen 8).wf 8 0 = false ∧ (Instr.rxBadlen 1).wf 8 0 = false := by decide
theorem test_wf_data : (Instr.rxData 0).wf 8 1 = false := by decide
theorem test_wf_last : (Instr.rxLast 0).wf 8 2 = false := by decide

/-! ## Decoding, each key written out bit by bit from the tables of rules R107, R109, R111, R112 (V43) -/

theorem test_decode_sync1 : decode 8 0 (.k 0b0011111111#10) = .ok .rxSync1 := by decide
theorem test_decode_skip : decode 8 0 (.k 0b0001010101#10) = .ok (.rxSkip 0b01010101#8) := by decide
theorem test_decode_sync2 : decode 8 0 (.k 0b0101010101#10) = .ok .rxSync2 := by decide
theorem test_decode_resync : decode 8 0 (.k 0b0101010100#10) = .ok (.rxResync 0b01010100#8) := by decide
theorem test_decode_len :
    decode 8 0 (.k 0b1000000001#10) = .ok (.rxLen 1) ∧ decode 255 0 (.k 0b1011111111#10) = .ok (.rxLen 255) := by decide
theorem test_decode_badlen :
    decode 8 0 (.k 0b1000000000#10) = .ok (.rxBadlen 0) ∧ decode 8 0 (.k 0b1011111111#10) = .ok (.rxBadlen 255) := by
  decide
theorem test_decode_data : decode 8 2 (.k 0b1110000001#10) = .ok (.rxData 0b10000001#8) := by decide
theorem test_decode_last : decode 8 1 (.k 0b1110000001#10) = .ok (.rxLast 0b10000001#8) := by decide
theorem test_decode_expireWait :
    decode 8 0 (.s 0b0010#4) = .ok .suExpireWait ∧ decode 8 0 (.s 0b0011#4) = .ok .suExpireWait := by decide
theorem test_decode_first : decode 8 0 (.s 0b0001#4) = .ok .suFirst := by decide
theorem test_decode_holdWait : decode 8 0 (.s 0b0000#4) = .ok .suHoldWait := by decide
theorem test_decode_expireDrain :
    decode 8 0 (.s 0b0110#4) = .ok .suExpireDrain ∧ decode 8 0 (.s 0b0111#4) = .ok .suExpireDrain := by decide
theorem test_decode_drain : decode 8 0 (.s 0b0101#4) = .ok .suDrain := by decide
theorem test_decode_holdDrain : decode 8 0 (.s 0b0100#4) = .ok .suHoldDrain := by decide
theorem test_decode_done : decode 8 0 (.s 0b1000#4) = .ok .suDone ∧ decode 8 0 (.s 0b1011#4) = .ok .suDone := by decide
theorem test_decode_reserved : decode 8 0 (.s 0b1100#4) = .error .reservedSuState := by decide
theorem test_decode_nop : decode 8 0 (.h 0b000#3) = .ok .nop ∧ decode 8 0 (.h 0b100#3) = .ok .nop := by decide
theorem test_decode_sendP : decode 8 0 (.h 0b001#3) = .ok .sendP := by decide
theorem test_decode_sendS : decode 8 0 (.h 0b101#3) = .ok .sendS := by decide
theorem test_decode_pollP : decode 8 0 (.h 0b010#3) = .ok .pollP := by decide
theorem test_decode_pollS : decode 8 0 (.h 0b110#3) = .ok .pollS := by decide
theorem test_decode_wait : decode 8 0 (.h 0b011#3) = .ok .wait ∧ decode 8 0 (.h 0b111#3) = .ok .wait := by decide
theorem test_decode_create : decode 8 0 (.rst 1#1) = .ok .create := by decide
theorem test_decode_no_reset : decode 8 0 (.rst 0#1) = .error .resetNotAsserted := by decide

/-! ## The receiver, byte by byte (V1, V9, V13, V14, V18, V19) -/

theorem test_sync1 : get (step (rxState Rx.reset [0xFF])) (·.rx.state) = some .sawFirstSync := by decide
theorem test_skip :
    get (step (rxState Rx.reset [0x55])) (fun t => (t.rx, t.rxq)) = some (Rx.reset, []) := by decide
theorem test_sync2 :
    get (step (rxState { Rx.reset with state := .sawFirstSync } [0x55])) (·.rx.state) = some .sawSecondSync := by decide
/-- V9: a second `FF` is a mismatch. -/
theorem test_resync_ff :
    get (step (rxState { Rx.reset with state := .sawFirstSync } [0xFF])) (·.rx.state) = some .idle := by decide
theorem test_len :
    get (step (rxState ⟨.sawSecondSync, 0, 2, [(0, 0x11), (1, 0x22)], 2⟩ [0x03])) (·.rx) =
      some ⟨.readingPayload, 3, 0, [(0, 0x11), (1, 0x22)], 3⟩ := by decide
/-- V14: `FF` as a bad length goes to `Idle`, not to `SawFirstSync`. -/
theorem test_badlen_ff :
    get (step (rxState ⟨.sawSecondSync, 0, 2, [(0, 0x11), (1, 0x22)], 2⟩ [0xFF])) (·.rx) =
      some ⟨.idle, 0, 2, [(0, 0x11), (1, 0x22)], 2⟩ := by decide
theorem test_data :
    get (step (rxState ⟨.readingPayload, 3, 0, [], 3⟩ [0x01])) (fun t => (t.rx, t.outcome)) =
      some (⟨.readingPayload, 2, 1, [(0, 0x01)], 3⟩, none) := by decide
/-- V1, last byte: the poll ends with 3 and the host reads `03` at index 2. -/
theorem test_last :
    get (step (rxState ⟨.readingPayload, 1, 2, [(0, 0x01), (1, 0x02)], 3⟩ [0x03]))
      (fun t => (t.rx, t.outcome, t.cmds, t.bufData 0 2)) =
      some (⟨.idle, 0, 3, [(0, 0x01), (1, 0x02), (2, 0x03)], 3⟩, some (.bytesReceived 3 .peer), [], 0x03) := by decide
/-- V4: the last write of a frame of `MTU` bytes is to cell 7. -/
theorem test_last_top :
    get (step (rxState ⟨.readingPayload, 1, 7, [], 8⟩ [0x17])) (·.rx) = some ⟨.idle, 0, 8, [(7, 0x17)], 8⟩ := by decide
/-- Rule R77: there is no cell 8. -/
theorem test_data_outside : exec (.rxData 0) (rxState ⟨.readingPayload, 2, 8, [], 10⟩ []) = .fault .rxBufIndex := rfl

/-! ## The startup controller (V31, V32, V34 to V38, V40, V42) -/

theorem test_holdWait :
    get (step (suState .waitInput 4999 [])) (fun t => (t.suState, t.suTEntry)) = some (.waitInput, 0) := by decide
theorem test_expireWait :
    get (step (suState .waitInput 5000 [])) (fun t => (t.suState, t.suTEntry, t.drained, t.ready)) =
      some (.operational, 5000, 0, true) := by decide
/-- V35 (b): the byte at the deadline is left. -/
theorem test_expireWait_byte :
    get (step (suState .waitInput 5000 [0x5A])) (fun t => (t.suState, t.rxq)) = some (.operational, [0x5A]) := by decide
/-- V37: one byte of a burst, not interpreted. -/
theorem test_first :
    get (step (suState .waitInput 100 [0xFF, 0x55, 0x03])) (fun t => (t.suState, t.suTEntry, t.rxq, t.drained, t.rx)) =
      some (.drainInput, 100, [0x55, 0x03], 1, Rx.reset) := by decide
theorem test_holdDrain : get (step (suState .drainInput 999 [])) (·.suState) = some .drainInput := by decide
theorem test_drain :
    get (step (suState .drainInput 500 [0xA7])) (fun t => (t.suState, t.suTEntry, t.rxq)) =
      some (.drainInput, 500, []) := by decide
/-- V36 (a). -/
theorem test_expireDrain :
    get (step (suState .drainInput 1000 [0xA7])) (fun t => (t.suState, t.suTEntry, t.rxq)) =
      some (.operational, 1000, [0xA7]) := by decide
theorem test_done :
    get (step (suState .operational 9000 [0xFF])) (fun t => (t.suState, t.suTEntry, t.rxq)) =
      some (.operational, 0, [0xFF]) := by decide
/-- V40, rows 1, 4, 5, 6, 7, 9, 11, 12. -/
theorem test_elapsed :
    clockDiff 32 0x1388 0 = 5000 ∧ clockDiff 32 0x7D0 0xFFFFF448 = 5000 ∧ clockDiff 32 0 1 = -1 ∧
    clockDiff 32 0x7FFFFFFF 0 = 2147483647 ∧ clockDiff 32 0x80000000 0 = -2147483648 ∧
    clockDiff 16 0x64 0xC8 = -100 ∧ clockDiff 14 0x1FFF 0 = 8191 ∧ clockDiff 14 0x2000 0 = -8192 := by decide

/-! ## The host's operations (V2, V7, V11, V20 to V30) -/

/-- V20 (b). -/
theorem test_sendP :
    get (step (opState .packet [0x0A] [] (send [1, 2, 3]))) (fun t => (t.txh, t.outcome, t.cmds)) =
      some ([0xFF, 0x55, 3, 1, 2, 3, 0x0A], some (.bytesSent 3), []) := by decide
/-- V22: `MTU + 1`. -/
theorem test_sendP_oversize :
    get (step (opState .packet [] [0xAA] (sendLen 9))) (fun t => ((t.fault, t.ready, t.causeCode), t.txh, t.rxq, t.outcome)) =
      some ((true, false, 1), [], [0xAA], some (.fatal 1)) := by decide
/-- V24: no terminator whatever `TERM` is. -/
theorem test_sendS :
    get (step (opState .stream [0x0A] [] (send [0x41, 0x42]))) (fun t => (t.txh, t.outcome)) =
      some ([0x41, 0x42], some (.bytesSent 2)) := by decide
/-- V25. -/
theorem test_sendS_oversize :
    get (step (opState .stream [] [] (sendLen 9))) (fun t => (t.fault, t.txh)) = some (true, []) := by decide
/-- V2: the poll taken whole stops at the frame. -/
theorem test_pollP :
    get (exec .pollP (opState .packet [0x0A] [0xFF, 0x55, 3, 1, 2, 3, 0x0A] (poll 8)))
      (fun t => (t.outcome, t.rxq, t.rx.cursor, t.bufData 0 1)) =
      some (some (.bytesReceived 3 .peer), [0x0A], 3, 2) := by decide
/-- V15, first poll: a truncated frame; the poll consumes all and returns 0. -/
theorem test_pollP_partial :
    get (exec .pollP (opState .packet [] [0xFF, 0x55, 4, 0xA1, 0xA2] (poll 8)))
      (fun t => (t.outcome, t.rxq, t.rx.state, t.rx.remaining, t.rx.cursor)) =
      some (some (.bytesReceived 0 .peer), [], .readingPayload, 2, 2) := by decide
/-- Rule R199, U10: a capacity below `MTU` is refused, by a step too; before the fault is cleared acceptance comes first. -/
theorem test_pollP_short_capacity :
    step (opState .packet [] [0xFF, 0x55, 1, 0xAA] (poll 7)) = .refused .capacityShort ∧
    get (step { opState .packet [] [0xFF] (poll 7) with fault := true }) (·.outcome) = some (some (.refused .faulted)) :=
  ⟨rfl, by decide⟩
/-- Log 27 (the model's choice): a poll refused after the fault leaves the frame reported before to the host. -/
theorem test_refused_poll_keeps_the_frame :
    get (step { rxState ⟨.idle, 0, 1, [(0, 0xAA)], 1⟩ [0xFF] with frameLen := 1, fault := true })
      (fun t => (t.outcome, t.bufData 5 0, t.rxq)) = some (some (.refused .faulted), 0xAA, [0xFF]) := by decide
/-- V26. -/
theorem test_pollS :
    get (step (opState .stream [] [0x41, 0x42, 0x43] (poll 2))) (fun t => (t.outcome, t.rxq, t.hostBuf, t.rx)) =
      some (some (.bytesReceived 2 .peer), [0x43], [(0, 0x41), (1, 0x42)], Rx.reset) := by decide
/-- V27: capacity 0. -/
theorem test_pollS_zero :
    get (step (opState .stream [] [0xFF, 0x55] (poll 0))) (fun t => (t.outcome, t.rxq, t.hostBuf)) =
      some (some (.bytesReceived 0 .peer), [0xFF, 0x55], []) := by decide
/-- V28. -/
theorem test_wait :
    get (step (opState .packet [] [0x0A] waitCmd)) (fun t => (t.outcome, t.rxq)) = some (some (.hasData true), [0x0A]) ∧
    get (step (opState .packet [] [] waitCmd)) (·.outcome) = some (some (.hasData false)) := by decide
/-- V30: accepted after the fault, does nothing. -/
theorem test_nop :
    get (step { opState .packet [] [0xAA] Command.idle with fault := true }) (fun t => (t.fault, t.rxq, t.outcome)) =
      some (true, [0xAA], none) := by decide
/-- V29: an oversize send before `Operational` is refused, not faulted. -/
theorem test_early_send :
    get (step { suState .drainInput 50 [] with cmds := [sendLen 9] }) (fun t => (t.fault, t.outcome)) =
      some (false, some (.refused .notOperational)) := by decide
/-- V30, P4: reset at 6000 after the fault. -/
theorem test_create :
    get (step { opState .packet [] [0xFF, 0x55] (send [1]) with fault := true, inputs := [⟨6000, [], true, none, 0⟩] })
      (fun t => (t.fault, t.suState, t.suTEntry, t.rx, t.rxq)) =
      some (false, .waitInput, 6000, Rx.reset, [0xFF, 0x55]) := by decide

/-- Rule R281: reset finds a send of three bytes with four bytes pushed: header and one byte of payload stay on the wire. -/
theorem test_create_cuts_a_send :
    get (step { opState .packet [0x0A] [] (send [1, 2, 3]) with
        txh := [0x77], wire := [0x77], inputs := [⟨6000, [], true, none, 4⟩] })
      (fun t => (t.txh, t.wire, t.cmds, t.rx)) = some ([], [0x77, 0xFF, 0x55, 3, 1], [], Rx.reset) := by decide
/-- Rule R281: with no send in progress nothing is added. -/
theorem test_create_cuts_nothing :
    get (step { opState .packet [] [] waitCmd with wire := [0x77], inputs := [⟨6000, [], true, none, 4⟩] }) (·.wire) =
      some [0x77] := by decide

/-! ## Witnesses: for each statement with hypotheses, a state and operands that meet all of them together -/

/-- The state of most witnesses meets the invariant. -/
theorem inv_opState (mode : Mode) (rxq : List Byte) (c : Command) : Inv (opState mode [] rxq c) :=
  { config := (by cases mode <;> decide : (cfgOf mode []).wf = true)
    receiver := rxInv_reset _
    startup := fun h => absurd rfl h
    stream := fun _ => rfl
    entry := Nat.two_pow_pos 32
    hostMemory := rfl
    held := fun h => absurd rfl h
    history := ⟨[], rfl⟩
    inReset := fun h => by cases h }

theorem inv_reset : Inv State.reset :=
  { config := by decide
    receiver := rxInv_reset _
    startup := fun _ => ⟨rfl, rfl⟩
    stream := fun _ => rfl
    entry := by decide
    hostMemory := rfl
    held := fun h => absurd rfl h
    history := ⟨[], rfl⟩
    inReset := fun h => by cases h }

/-- A receiver that waits for the last byte of a frame of `MTU` bytes meets its part of the invariant's bounds. -/
theorem witness_rx_bounds :
    (7#8).toNat < 8 ∧ 8 ≤ (8#8).toNat ∧ 1 ≤ (1#8).toNat ∧ 1 < (2#8).toNat := by decide

theorem witness_StepRunsTheDecodedInstruction :
    decode State.reset.cfg.mtu State.reset.rx.remaining State.reset.sample.fetch.2 = .ok .suHoldWait ∧
    (let s := rxState Rx.reset [0xFF]
     decode s.cfg.mtu s.rx.remaining s.sample.fetch.2 = .ok .rxSync1 ∧ s.sample.fetch.1 ≠ s.sample) := by decide

/-- Its other clauses: reset; no command, in each startup state at its timeout and just before it, with and without a byte; a
send and a wait at the port; a poll taken per byte with a byte and without; and the ways a poll is not taken so. -/
theorem witness_StepRunsTheDecodedInstruction_keys :
    (let s : State := { State.reset with inputs := [⟨0, [], true, none, 0⟩] }
     s.sample.rst = true ∧ s.sample.fetch.2 = .rst 1#1) ∧
    (∀ x ∈ [(suState .waitInput 4999 [0], Key.s 0b0001#4), (suState .waitInput 5000 [], .s 0b0010#4),
        (suState .drainInput 999 [], .s 0b0100#4), (suState .drainInput 1000 [0], .s 0b0111#4),
        (suState .operational 9000 [], .s 0b1000#4)],
      x.1.sample.rst = false ∧ x.1.sample.cmds = [] ∧ x.1.sample.fetch.2 = x.2) ∧
    (∀ x ∈ [(opState .packet [] [0xFF] (send [1]), Key.h 0b001#3), (opState .stream [] [0xFF] waitCmd, .h 0b111#3),
        (opState .packet [] [0xFF] (poll 8), .k 0x0FF#10), (opState .packet [] [] (poll 8), .h 0b010#3),
        (opState .packet [] [0xFF] (poll 7), .h 0b010#3), (opState .stream [] [0xFF] (poll 8), .h 0b110#3),
        ({ opState .packet [] [0xFF] (poll 8) with pollGrain := .whole }, .h 0b010#3),
        ({ opState .packet [] [0xFF] (poll 8) with fault := true }, .h 0b010#3)],
      x.1.sample.rst = false ∧ x.1.sample.cmds ≠ [] ∧ x.1.sample.fetch.2 = x.2) := by decide

theorem witness_SampleTakesThePorts :
    (let s : State := { State.reset with rst := true, inputs := [⟨7, [0xFF], false, some waitCmd, 0⟩] }
     s.inputs = ⟨7, [0xFF], false, some waitCmd, 0⟩ :: [] ∧ s.rst = true) ∧
    State.reset.inputs = [] ∧ ({ State.reset with rst := true } : State).inputs = [] := by decide

theorem witness_DecodeOfEncodeIsTheInstruction :
    (Instr.rxLen 1).wf 8 0 = true ∧ (Instr.rxLen 8).wf 8 0 = true ∧ (Instr.rxBadlen 0).wf 8 0 = true ∧
    (Instr.rxBadlen 9).wf 8 0 = true ∧ (Instr.rxData 0xFF).wf 8 2 = true ∧ (Instr.rxLast 0xFF).wf 8 1 = true ∧
    (Instr.rxSkip 0xFE).wf 8 0 = true ∧ (Instr.rxResync 0xFF).wf 8 0 = true := by decide

theorem witness_DecodedKeyMeetsItsTableRow : decode 8 1 (.k 0x3FF#10) = .ok (.rxLast 0xFF) := by decide

/-- `PayloadRowsStoreTheByte`: the cursor at the last cell; `PayloadRowsStopOutsideTheBuffer`: one past it. -/
theorem witness_PayloadRows :
    (rxState ⟨.readingPayload, 1, 7, [], 8⟩ []).rx.cursor.toNat < (rxState ⟨.readingPayload, 1, 7, [], 8⟩ []).cfg.mtu ∧
    (rxState ⟨.readingPayload, 2, 8, [], 10⟩ []).cfg.mtu ≤ (rxState ⟨.readingPayload, 2, 8, [], 10⟩ []).rx.cursor.toNat := by
  decide

theorem witness_ReceiverStepIsRxByte :
    (let s := rxState ⟨.readingPayload, 1, 7, [], 8⟩ [0x17]
     s.sample.rst = false ∧ s.sample.cmds ≠ [] ∧ s.sample.pollingByBytes = true ∧ s.sample.rxq = [0x17] ∧
       s.rx.byte s.cfg.mtu 0x17 = some (⟨.idle, 0, 8, [(7, 0x17)], 8⟩, true)) ∧
    (let s := rxState Rx.reset [0xFF]
     s.sample.rst = false ∧ s.sample.cmds ≠ [] ∧ s.sample.pollingByBytes = true ∧ s.sample.rxq = [0xFF] ∧
       s.rx.byte s.cfg.mtu 0xFF = some (⟨.sawFirstSync, 0, 0, [], 0⟩, false)) := by decide

theorem witness_StartupRowsDrainTheLine :
    (suState .waitInput 5000 []).fault = false ∧ (suState .waitInput 100 [0xA7]).rxq = 0xA7 :: [] := by decide

theorem witness_DrainingNothingIsRefused : (suState .waitInput 100 []).rxq = [] := rfl

theorem witness_StartupStepIsSuStep :
    (suState .drainInput 500 [0xA7]).sample.rst = false ∧ (suState .drainInput 500 [0xA7]).sample.cmds = [] := by decide

/-- Each clause: reset; `Operational` stays; both ways out of `DrainInput`; a hold in `WaitInput`. -/
theorem witness_StartupStateMovesOneWay :
    (let s : State := { opState .packet [] [] waitCmd with inputs := [⟨0, [], true, none, 0⟩] }
     s.sample.rst = true ∧ get (step s) (·.suState) = some .waitInput) ∧
    get (step (suState .operational 0 [])) (·.suState) = some .operational ∧
    get (step (suState .drainInput 999 [])) (·.suState) = some .drainInput ∧
    get (step (suState .drainInput 1000 [])) (·.suState) = some .operational ∧
    get (step (suState .waitInput 4999 [])) (·.suState) = some .waitInput := by decide

/-- Both sides of half the clock's range. -/
theorem witness_ElapsedTimeIsWrapSafe : 1 ≤ 14 ∧ 8191 < 2 ^ 14 ∧ 8191 < 2 ^ (14 - 1) ∧ 8192 < 2 ^ 14 ∧ ¬ 8192 < 2 ^ (14 - 1) := by
  decide

theorem witness_OperationalOnlyAfterTheTimeout :
    get (step (suState .waitInput 5000 [])) (·.suState) = some .operational ∧
    get (step (suState .drainInput 1000 [])) (·.suState) = some .operational := by decide

theorem witness_TimeoutBeatsTheByte :
    (let s := suState .waitInput 5000 [0x5A]
     s.sample.rst = false ∧ s.sample.cmds = [] ∧ s.sample.rxq ≠ [] ∧
       5000 ≤ clockDiff s.cfg.cw s.sample.now s.sample.suTEntry) ∧
    (let s := suState .drainInput 1000 [0x5A]
     s.sample.rst = false ∧ s.sample.cmds = [] ∧ s.sample.rxq ≠ [] ∧
       1000 ≤ clockDiff s.cfg.cw s.sample.now s.sample.suTEntry) := by decide

theorem witness_FirstTransitionAfterReset :
    (let s : State := { State.reset with rst := true, inputs := [silentAt 0] }
     s.rst = true ∧ s.suState = .waitInput ∧ s.sample.rst = false ∧ s.sample.cmds = [] ∧ s.sample.rxq = []) ∧
    (let s : State := { State.reset with rst := true, inputs := [bytesAt 0 [0xA7]] }
     s.rst = true ∧ s.suState = .waitInput ∧ s.sample.rst = false ∧ s.sample.cmds = [] ∧ s.sample.rxq = [0xA7]) := by
  decide

/-- `SilentLineReachesOperationalAt5000` and `OneByteThenSilenceReachesOperational`, at both ends of `d`. -/
theorem witness_StartupTiming : Config.initial.wf = true ∧ 0 < 5000 ∧ 4999 < 5000 := by decide

theorem witness_DrainedBytesAreNotInterpreted :
    (let s := suState .waitInput 100 [0xFF, 0x55]
     s.sample.rst = false ∧ s.sample.cmds = [] ∧ s.rxq.length = [0x00#8, 0x01#8].length ∧ s.suState ≠ .operational ∧
       get (step s) (·.drained) = some 1) := by decide

/-- `SendPacketEmitsAFrame`, `SendStreamEmitsThePayload` with `length` 0 and `MTU`; `OversizeSendTakesTheFault` with
`MTU + 1`. -/
theorem witness_Sends :
    (∀ m ∈ [Mode.packet, .stream], ∀ n ∈ [0, 8],
      let s := opState m [] [] (sendLen n)
      s.ready = true ∧ s.cmd.lengthOf s.cfg ≤ s.cfg.mtu ∧ s.cmd.lengthOf s.cfg ≤ s.cmd.payload.length) ∧
    (let s := opState .stream [] [] (sendLen 9)
     Instr.sendS ∈ [Instr.sendP, .sendS] ∧ s.ready = true ∧ s.cfg.mtu < s.cmd.lengthOf s.cfg) := by decide

theorem witness_ShortPayloadIsRefused :
    (let s := opState .packet [] [] { sendLen 7 with length := 8 }
     s.ready = true ∧ s.cmd.lengthOf s.cfg ≤ s.cfg.mtu ∧ s.cmd.payload.length < s.cmd.lengthOf s.cfg) := by decide

theorem witness_ZeroLengthSendIsNeverReceived :
    (let s := opState .packet [0x0A] [] (sendLen 0)
     s.ready = true ∧ s.cfg.wf = true ∧ s.cmd.lengthOf s.cfg = 0 ∧ s.rx.state = .idle) := by decide

/-- `RoundTripReportsThePayload`, with a payload of 1 byte and of `MTU` bytes. -/
theorem witness_RoundTripReportsThePayload :
    (cfgOf .packet [0x0A]).wf = true ∧ (cfgOf .packet [0x0A]).mode = .packet ∧ 1 ≤ [0xFF#8].length ∧
    (List.replicate 8 0xFF#8).length ≤ (cfgOf .packet [0x0A]).mtu ∧ Rx.reset.state = .idle := by decide

/-- V8, V10: harmless prefixes. -/
theorem witness_HarmlessGarbageCostsNothing :
    Rx.reset.run 8 [0x00, 0x55, 0xFF, 0x00, 0x12] = some (Rx.reset, []) ∧
    Rx.reset.run 8 [0xFF, 0xFF] = some (Rx.reset, []) ∧ Rx.reset.state = .idle ∧ 8 ≤ 255 := by decide

/-- Garbage without the marker: empty, ending in an even run of `0xFF`, in an odd one; and a frame of `MTU` bytes. -/
theorem witness_GarbageWithoutTheMarkerIsHarmless :
    (∀ g ∈ [[], [0x55, 0xFF, 0xFF], [0xFF, 0x00, 0x55, 0xFF]], ¬ [0xFF#8, 0x55#8] <:+: g) ∧ Rx.reset.state = .idle ∧
    trailingSyncs [0x55, 0xFF, 0xFF] % 2 = 0 ∧ trailingSyncs [0xFF, 0x00, 0x55, 0xFF] % 2 ≠ 0 ∧
    8 ≤ 255 ∧ 1 ≤ (List.replicate 8 0xFF#8).length ∧ (List.replicate 8 0xFF#8).length ≤ 8 := by decide

theorem witness_StrayFirstSyncByteLosesTheFrame :
    [0xAA#8].length < 255 ∧ (0xFF#8) ∉ [0xAA#8] ∧ Rx.reset.state = .idle := by decide

/-- `BadLengthIsNoise`: length 0, and one above `MTU`. -/
theorem witness_BadLengthIsNoise :
    8 ≤ 255 ∧ (0#8).toNat = 0 ∧ 8 < (9#8).toNat ∧ 1 ≤ [0x11#8].length ∧ [0x11#8].length ≤ 8 ∧ Rx.reset.state = .idle := by
  decide

/-- Splits inside the marker and just before the last byte. -/
theorem witness_SplitFrameIsReportedOnce :
    wireFrame [] [0x11, 0x22] = [0xFF] ++ [0x55, 2, 0x11, 0x22] ∧
    wireFrame [] [0x11, 0x22] = [0xFF, 0x55, 2, 0x11] ++ [0x22] ∧ [0x22#8] ≠ [] ∧ Rx.reset.state = .idle := by decide

theorem witness_PollPacketStopsAtTheFrame :
    (let s := opState .packet [] [0xFF, 0x55, 2] (poll 8)
     s.ready = true ∧ s.cfg.mtu ≤ s.cmd.capacity ∧ s.rx.run s.cfg.mtu s.rxq = some (⟨.readingPayload, 2, 0, [], 2⟩, [])) ∧
    (let s := opState .packet [] ([0xFF, 0x55, 1] ++ 0xAA :: [0x0A]) (poll 8)
     s.ready = true ∧ s.cfg.mtu ≤ s.cmd.capacity ∧ s.rxq = [0xFF, 0x55, 1] ++ 0xAA :: [0x0A] ∧
       s.rx.run s.cfg.mtu [0xFF, 0x55, 1] = some (⟨.readingPayload, 1, 0, [], 1⟩, []) ∧
       (⟨.readingPayload, 1, 0, [], 1⟩ : Rx).byte s.cfg.mtu 0xAA = some (⟨.idle, 0, 1, [(0, 0xAA)], 1⟩, true)) := by decide

/-- A receiver in the middle of a frame of `MTU` bytes, two of which are still to come. -/
def midFrame : Rx :=
  ⟨.readingPayload, 2, 6, [(0, 1), (1, 2), (2, 3), (3, 4), (4, 5), (5, 6)], 8⟩

theorem rxInv_midFrame : RxInv 8 midFrame :=
  ⟨by decide, by decide, by decide, by decide, by decide, by decide⟩

theorem inv_midFrame (rxq : List Byte) : Inv (rxState midFrame rxq) :=
  { inv_opState .packet rxq (poll 8) with
    receiver := rxInv_midFrame
    startup := fun h => absurd rfl h
    stream := fun h => by cases h
    held := fun h => absurd rfl h }

/-- `PollPacketReportsWholeFrames`: the invariant, and a poll that reports a frame; a frame in progress with exactly its last
bytes waiting, and with one too few. -/
theorem witness_PollPacketReportsWholeFrames :
    (∀ x ∈ [([0xA1, 0xA2], 8), ([0xA1], 0)],
      let s := rxState midFrame x.1
      s.ready = true ∧ s.cfg.mode = .packet ∧ s.cfg.mtu ≤ s.cmd.capacity ∧ s.rx.state = .readingPayload ∧
        get (exec .pollP s) (·.outcome) = some (some (.bytesReceived x.2 .peer))) ∧
    Inv (rxState midFrame [0xA1, 0xA2]) ∧ Inv (rxState midFrame [0xA1]) ∧
    (opState .packet [] [0xFF, 0x55, 1, 0xAA] (poll 8)).ready = true ∧
    Inv (opState .packet [] [0xFF, 0x55, 1, 0xAA] (poll 8)) ∧
    get (exec .pollP (opState .packet [] [0xFF, 0x55, 1, 0xAA] (poll 8))) (·.outcome) =
      some (some (.bytesReceived 1 .peer)) :=
  ⟨by decide, inv_midFrame _, inv_midFrame _, by decide, inv_opState _ _ _, by decide⟩

theorem witness_PollWithNothingWaitingReturnsZero :
    (opState .packet [] [] (poll 8)).ready = true ∧ (opState .packet [] [] (poll 8)).cfg.mtu ≤ (poll 8).capacity ∧
    (opState .packet [] [] (poll 8)).rxq = [] := by decide

theorem witness_ShortCapacityIsRefused :
    (opState .packet [] [0xFF] (poll 7)).ready = true ∧
    (opState .packet [] [0xFF] (poll 7)).cmd.capacity < (opState .packet [] [0xFF] (poll 7)).cfg.mtu := by decide

/-- `PollStreamCopiesUpToCapacity`, `WaitReportsAvailability`: ready; a capacity below, at and above what waits. -/
theorem witness_Ready :
    (opState .stream [] [0x41, 0x42, 0x43] (poll 2)).ready = true ∧
    (opState .stream [] [0x41, 0x42] (poll 2)).ready = true ∧ (opState .stream [] [0x41] (poll 2)).ready = true ∧
    (opState .packet [] [] waitCmd).ready = true := by decide

/-- `ResetCutsOffASend`: a send going out in each mode, with `MTU` bytes; an oversize send, which does not go out. -/
theorem witness_ResetCutsOffASend :
    (∀ m ∈ [Mode.packet, .stream],
      let s : State := { opState m [0x0A] [] (sendLen 8) with cut := 2 }
      s.ready = true ∧ s.cmd.op = .send ∧ s.cmd.lengthOf s.cfg ≤ s.cfg.mtu ∧
        s.cmd.lengthOf s.cfg ≤ s.cmd.payload.length ∧ s.cfg.mode = m) ∧
    ¬ (opState .packet [] [] (sendLen 9)).cmd.lengthOf (cfgOf .packet []) ≤ (cfgOf .packet []).mtu := by decide

/-- Not ready for each of the two reasons. -/
theorem witness_CommandsAreTurnedAwayUntilReady :
    (suState .drainInput 0 []).ready = false ∧ ({ opState .packet [] [] waitCmd with fault := true } : State).ready = false ∧
    Instr.sendP ∈ [Instr.sendP, .sendS, .pollP, .pollS, .wait] := by decide

theorem witness_EachSideKeepsToItsState :
    get (exec .wait (opState .packet [] [] waitCmd)) (·.rx) = some Rx.reset ∧
    get (exec .suFirst (suState .waitInput 0 [0xFF])) (·.rx) = some Rx.reset ∧
    get (exec (.rxData 0xFF) (rxState ⟨.readingPayload, 2, 6, [], 8⟩ [])) (·.suState) = some .operational := by decide

/-- A reset, a send that appends, and a send cut off by reset. -/
theorem witness_OnlyASendAppendsToTheWire :
    (let s : State := { opState .packet [] [] waitCmd with txh := [0xFF], inputs := [⟨0, [], true, none, 0⟩] }
     s.sample.rst = true ∧ get (step s) (·.txh) = some []) ∧
    (let s := opState .packet [] [] (send [0xAA])
     s.sample.rst = false ∧ get (step s) (·.txh) = some [0xFF, 0x55, 1, 0xAA]) ∧
    (let s : State := { opState .packet [] [] (send [0xAA]) with inputs := [⟨0, [], true, none, 1⟩] }
     s.sample.rst = true ∧ get (step s) (fun t => (t.txh, t.wire)) = some ([], [0xFF])) := by decide

theorem witness_ReceiveSourceIsFirstInFirstOut :
    (let s : State := { suState .waitInput 0 [0x01] with inputs := [bytesAt 1 [0x02, 0x03]] }
     s.sample.rxq = [0x01, 0x02, 0x03] ∧ get (step s) (·.rxq) = some [0x02, 0x03]) ∧
    get (step (suState .drainInput 0 [0x01, 0x02])) (·.rxq) = some [0x02] := by decide

theorem witness_CommandsFinishInOrder :
    (let s : State := { opState .packet [] [] waitCmd with cmds := [waitCmd, poll 0] }
     s.sample.rst = false ∧ get (step s) (·.cmds) = some [poll 0]) ∧
    (let s : State := { opState .packet [] [] waitCmd with inputs := [⟨0, [], true, none, 0⟩] }
     s.sample.rst = true ∧ get (step s) (·.cmds) = some []) := by decide

theorem witness_OnlyAnOversizeSendFaults :
    (opState .packet [] [] (sendLen 9)).fault = false ∧
    get (step (opState .packet [] [] (sendLen 9))) (·.fault) = some true := by decide

theorem witness_FaultLastsUntilReset :
    (let s : State := { opState .packet [] [0xFF] (poll 8) with fault := true }
     Inv s ∧ s.fault = true ∧ s.sample.rst = false ∧ get (step s) (·.fault) = some true) :=
  ⟨{ inv_opState .packet [0xFF] (poll 8) with startup := fun h => absurd rfl h }, rfl, rfl, by decide⟩

theorem witness_ConfigurationNeverChanges : get (step State.reset) (·.cfg) = some Config.initial := by decide

theorem witness_StreamModeLeavesTheReceiverAlone :
    (let s := opState .stream [] [0xFF, 0x55] (poll 1)
     s.cfg.mode = .stream ∧ s.sample.rst = false ∧ get (step s) (·.rxq) = some [0x55]) := by decide

/-- Both ways to meet the premise: no command, and a command that is no poll, with a reported frame to keep. -/
theorem witness_ReportedFrameIsStable :
    (let s : State := { rxState ⟨.idle, 0, 1, [(0, 0xAA)], 1⟩ [0xFF] with frameLen := 1, cmds := [] }
     s.sample.rst = false ∧ s.sample.cmds = [] ∧ get (step s) (·.frameLen) = some 1) ∧
    (let s : State := { rxState ⟨.idle, 0, 1, [(0, 0xAA)], 1⟩ [0xFF] with frameLen := 1, cmds := [send [1]] }
     s.sample.rst = false ∧ s.sample.cmd.op ≠ .poll ∧ get (step s) (fun t => t.bufData 5 0) = some 0xAA) := by decide

theorem witness_InvariantHoldsAtReset : Config.initial.wf = true := by decide

theorem witness_EveryStepKeepsTheInvariant :
    Inv State.reset ∧ get (step State.reset) (·.suState) = some .waitInput ∧
    Inv (opState .packet [] [0xFF] (poll 8)) ∧
    get (step (opState .packet [] [0xFF] (poll 8))) (·.rx.state) = some .sawFirstSync :=
  ⟨inv_reset, by decide, inv_opState _ _ _, by decide⟩

/-- `StepNeverFaults`: the invariant with each of the two steps that are refused. -/
theorem witness_StepNeverFaults :
    Inv (opState .packet [] [] { sendLen 7 with length := 8 }) ∧
    step (opState .packet [] [] { sendLen 7 with length := 8 }) = .refused .payloadShort ∧
    Inv (opState .packet [] [0xFF] (poll 7)) ∧
    step (opState .packet [] [0xFF] (poll 7)) = .refused .capacityShort :=
  ⟨inv_opState _ _ _, rfl, inv_opState _ _ _, rfl⟩

theorem witness_PollByBytesIsThePollTakenWhole :
    (let s := opState .packet [] [0xFF, 0x55, 1, 0xAA, 0x0A] (poll 8)
     s.inputs = [] ∧ s.rst = false ∧ s.cmds = poll 8 :: [] ∧ (poll 8).op = .poll ∧ s.cfg.mode = .packet ∧
       s.pollGrain = .perByte ∧ s.ready = true) := by decide

/-- `SentPayloadIsReadBack`, with a payload of 1 byte and of `MTU` bytes. -/
theorem witness_SentPayloadIsReadBack :
    ∀ n ∈ [1, 8],
      Inv { opState .packet [] [] (sendLen n) with cmds := [sendLen n, poll 8] } ∧
      (let s : State := { opState .packet [] [] (sendLen n) with cmds := [sendLen n, poll 8] }
       s.ready = true ∧ s.cfg.mode = .packet ∧ s.rx.state = .idle ∧ s.rxq = [] ∧ s.txh = [] ∧
         s.cmds = sendLen n :: poll 8 :: [] ∧ s.cfg.mtu ≤ (poll 8).capacity ∧
         (sendLen n).length = (sendLen n).payload.length ∧ 1 ≤ (sendLen n).payload.length ∧
         (sendLen n).payload.length ≤ s.cfg.mtu) :=
  fun n hn => ⟨{ inv_opState .packet [] (sendLen n) with }, by revert n; decide⟩

end Sys2Proof.Tests
end

section
/-! PROOFS. The startup state machine (rule R31): which moves of `suState` a step can make. -/

namespace Sys2Proof.Machine

open Sys2Proof

/-- No host command moves the startup state, whether it runs, is turned away or takes the fault. -/
theorem exec_command_keeps_suState {s t : State} {op : CmdOp} (h : exec (commandRow s.cfg.mode op) s = .next t) :
    t.suState = s.suState := by
  rcases exec_command_next h with ⟨-, rfl⟩ | ⟨-, -, rfl⟩ | ⟨-, -, -, rfl⟩ | ⟨-, -, -, -, rfl⟩ |
    ⟨-, -, -, -, r, (_ | _), q, -, rfl⟩ | ⟨-, -, -, rfl⟩ | ⟨-, -, rfl⟩ <;> rfl

/-- The moves of the startup state without reset: none, or out of `WaitInput` or `DrainInput` into one of the two states
other than `WaitInput`. Only the startup controller's own row makes them. -/
theorem step_suState_move {s t : State} (h : step s = .next t) (hr : s.sample.rst = false) :
    t.suState = s.suState ∨
      (s.suState ≠ .operational ∧ (t.suState = .drainInput ∨ t.suState = .operational)) := by
  rcases step_next h with ⟨hrst, -⟩ | ⟨-, -, hsu⟩ | ⟨-, c, cs, -, -, -, hexec⟩ | ⟨-, -, -, b, q, -, r, done, -, rfl⟩
  · simp [hrst] at hr
  · rcases hsu with rfl | ⟨hne, -, rfl⟩ | ⟨hne, -, b, q, -, rfl⟩
    · exact .inl s.sample_suState
    · exact .inr ⟨hne, .inr rfl⟩
    · exact .inr ⟨hne, .inl rfl⟩
  · exact .inl ((exec_command_keeps_suState hexec).trans s.sample_suState)
  · cases done <;> exact .inl s.sample_suState

/-- A step with reset applied leads to `WaitInput`. -/
theorem step_suState_reset {s t : State} (h : step s = .next t) (hr : s.sample.rst = true) :
    t.suState = .waitInput := by
  cases (step_reset hr).symm.trans h
  rfl

/-- Settles O16: reset leads to `WaitInput`, and the moves without reset are those of `step_suState_move`. -/
theorem startupStateMovesOneWay : Obligations.StartupStateMovesOneWay := by
  refine ⟨fun _ _ _ => rfl, fun s t h => ⟨step_suState_reset h, fun hr => ?_⟩⟩
  rcases step_suState_move h hr with hstay | ⟨hne, hmove⟩
  · rw [hstay]
    exact ⟨id, .inl, id⟩
  · refine ⟨fun hop => absurd hop hne, fun _ => hmove, fun hwait => ?_⟩
    simp [hwait] at hmove

end Sys2Proof.Machine
end

section
/-! PROOFS. The startup controller's rows (rules R142 to R148): which key selects each, and what each does. -/

namespace Sys2Proof.Machine

open Sys2Proof

/-- One bit of a key is the `bitOf` of the question it answers. -/
theorem bitOf_beq_one (b : BitVec 1) : bitOf (b == 1#1) = b := by
  rcases BitVec.eq_zero_or_eq_one b with rfl | rfl <;> rfl

/-- A format S key written out bit by bit selects the row of the startup table (rules R108, R109). -/
theorem decode_startup_key (mtu : Nat) (remaining : Byte) (st : SuState) (e a : BitVec 1) :
    decode mtu remaining (.s (st.code ++ e ++ a)) = .ok (startupRow st (e == 1#1) (a == 1#1)) :=
  calc decode mtu remaining (.s (st.code ++ e ++ a))
      = decodeS (keyS st (e == 1#1) (a == 1#1)) := by simp only [decode, keyS, bitOf_beq_one]
    _ = .ok (startupRow st (e == 1#1) (a == 1#1)) := decodeS_keyS _ _ _

/-- `Operational` makes the block ready unless it has faulted (rule R38). -/
theorem State.enterSu_operational_ready {s : State} (h : s.fault = false) : (s.enterSu .operational).ready = true :=
  (State.ready_eq_true _).mpr ⟨rfl, h⟩

/-- The two draining rows are one operation: the oldest byte goes, whatever it is, and `DrainInput` is entered. -/
theorem exec_draining_row {s : State} {i : Instr} {b : Byte} {q : List Byte} (hi : i = .suFirst ∨ i = .suDrain)
    (hq : s.rxq = b :: q) :
    exec i s = .next (State.enterSu { s with rxq := q, drained := s.drained + 1 } .drainInput) := by
  rcases hi with rfl | rfl <;> exact drainByte_cons (f := fun t => t.enterSu .drainInput) hq

/-- Settles O13: the keys by `decode_startup_key`, the expiries and holds by their definitions, the draining rows by
`exec_draining_row`. -/
theorem startupRowsDrainTheLine : Obligations.StartupRowsDrainTheLine := by
  refine ⟨fun mtu remaining e a => ?_, fun s => ?_, fun s b q hq => ?_⟩
  · have key := decode_startup_key mtu remaining
    exact ⟨key .waitInput 1#1 a, key .waitInput 0#1 1#1, key .waitInput 0#1 0#1, key .drainInput 1#1 a,
      key .drainInput 0#1 1#1, key .drainInput 0#1 0#1, key .operational e a⟩
  · exact ⟨rfl, rfl, rfl, rfl, rfl, State.enterSu_operational_ready⟩
  · exact ⟨exec_draining_row (.inl rfl) hq, exec_draining_row (.inr rfl) hq⟩

end Sys2Proof.Machine
end

section
/-! PROOFS. The frame sync detector's rows (rules R182 to R185): which key selects each, and what each does. -/

namespace Sys2Proof.Machine

open Sys2Proof

/-- A format K key written out as state code and byte selects the row of the receiver table (rules R106, R107). -/
theorem decode_receiver_key (mtu : Nat) (remaining : Byte) (st : RxState) (b : Byte) :
    decode mtu remaining (.k (st.code ++ b)) = .ok (receiverRow mtu remaining st b) :=
  congrArg Except.ok (decodeK_keyK mtu remaining st b)

/-- Settles O8: the keys by `decode_receiver_key`, the rows by their definitions, each of which writes `rx_state` only. -/
theorem headerRowsMoveTheReceiver : Obligations.HeaderRowsMoveTheReceiver := by
  refine ⟨fun mtu remaining b => ?_, fun s b => ?_⟩
  · have key := decode_receiver_key mtu remaining
    exact ⟨key .idle b, key .sawFirstSync b⟩
  · exact ⟨rfl, rfl, rfl, rfl⟩

end Sys2Proof.Machine
end

section
/-! PROOFS. Steps as equations: what a step answers where reset is low and the port shows no command, or a packet poll in
progress byte by byte (rules R150, R190). -/

namespace Sys2Proof.Machine

open Sys2Proof

/-- The receiver's row does what `RxByte` does (rule R190). -/
theorem exec_receiver_of_byte {s : State} {b : Byte} {r : Rx} {done : Bool} (h : s.rx.byte s.cfg.mtu b = some (r, done)) :
    exec (receiverRow s.cfg.mtu s.rx.remaining s.rx.state b) s =
      .next (if done then (s.setRx r).reportFrame else s.setRx r) := by
  rw [exec_receiver, h]
  cases done <;> rfl

/-- A step of a packet poll taken per byte: the byte is popped and the receiver does what `RxByte` does. -/
theorem step_of_byte {s : State} {b : Byte} {q : List Byte} {r : Rx} {done : Bool} (hr : s.sample.rst = false)
    (hc : s.sample.cmds ≠ []) (hp : s.sample.pollingByBytes = true) (hq : s.sample.rxq = b :: q)
    (hb : s.rx.byte s.cfg.mtu b = some (r, done)) :
    step s = .next
      (if done then ((s.sample.releaseFrame.setRxq q).setRx r).reportFrame
       else (s.sample.releaseFrame.setRxq q).setRx r) := by
  have hrow := exec_receiver_of_byte (s := s.sample.releaseFrame.setRxq q) (b := b) (r := r) (done := done)
    (by simpa using hb)
  rw [step_byte hr hc hp hq, ← hrow]
  simp

/-- Settles O12 by `step_of_byte`. -/
theorem receiverStepIsRxByte : Obligations.ReceiverStepIsRxByte := by
  intro s b q r done hr hc hp hq hb
  rw [step_of_byte hr hc hp hq hb]
  cases done <;> rfl

/-- When the timeout of the startup state is reached (rule R141). -/
theorem State.expired_eq_true (s : State) :
    s.expired = true ↔
      s.suState = .waitInput ∧ 5000 ≤ clockDiff s.cfg.cw s.now s.suTEntry ∨
        s.suState = .drainInput ∧ 1000 ≤ clockDiff s.cfg.cw s.now s.suTEntry := by
  cases hs : s.suState <;> simp [State.expired, hs, SuState.timeout, tWait, tDrain, State.elapsed] <;>
    exact decide_eq_true_iff

/-- At the timeout `SuStep` enters `Operational`. -/
theorem suStep_of_expired {s : State} (h : s.expired = true) : suStep s = s.enterSu .operational := by
  rcases s.expired_eq_true.mp h with ⟨hs, he⟩ | ⟨hs, he⟩ <;> simp [suStep, hs, tWait, tDrain, he, State.enterSu]

/-- Before the timeout `SuStep` throws a waiting byte away. -/
theorem suStep_of_byte {s : State} {b : Byte} {q : List Byte} (hne : s.suState ≠ .operational) (h : s.expired = false)
    (hq : s.rxq = b :: q) :
    suStep s = State.enterSu { s with rxq := q, drained := s.drained + 1 } .drainInput := by
  have he := mt s.expired_eq_true.mpr (by simp [h])
  cases hs : s.suState <;> simp_all [suStep, tWait, tDrain, State.enterSu, State.now]

/-- Before the timeout and with nothing waiting `SuStep` holds. -/
theorem suStep_of_silence {s : State} (h : s.expired = false) (hq : s.rxq = []) : suStep s = s := by
  have he := mt s.expired_eq_true.mpr (by simp [h])
  cases hs : s.suState <;> simp_all [suStep, tWait, tDrain]

/-- In `Operational` `SuStep` is the identity. -/
theorem suStep_operational {s : State} (h : s.suState = .operational) : suStep s = s := by
  simp [suStep, h]

/-- The startup table's row is `SuStep` (rule R150), where the key's bits are the truth about the state. -/
theorem exec_startup_row (s : State) :
    exec (startupRow s.suState s.expired s.rxAvail) s = .next (suStep s) := by
  by_cases hop : s.suState = .operational
  · rw [suStep_operational hop, hop]
    rfl
  cases he : s.expired with
  | true =>
    rw [suStep_of_expired he]
    cases hs : s.suState
    · rfl
    · rfl
    · exact absurd hs hop
  | false =>
    cases hq : s.rxq with
    | nil =>
      rw [suStep_of_silence he hq, show s.rxAvail = false by simp [State.rxAvail, hq]]
      cases hs : s.suState <;> rfl
    | cons b q =>
      rw [suStep_of_byte hop he hq, show s.rxAvail = true by simp [State.rxAvail, hq]]
      cases hs : s.suState
      · exact exec_draining_row (.inl rfl) hq
      · exact exec_draining_row (.inr rfl) hq
      · exact absurd hs hop

/-- With no reset and no command a step is one `SuStep` on the sampled state. -/
theorem step_suStep {s : State} (hr : s.sample.rst = false) (hc : s.sample.cmds = []) : step s = .next (suStep s.sample) := by
  rw [step_startup hr hc, ← exec_startup_row, State.sample_suState]

/-- Settles O15 by `step_suStep`. -/
theorem startupStepIsSuStep : Obligations.StartupStepIsSuStep :=
  fun _ hr hc => step_suStep hr hc

/-- While `ready` is 0 a send, poll or wait is turned away (rule R226). -/
theorem exec_turned_away {s : State} {i : Instr} (hi : i ∈ [Instr.sendP, .sendS, .pollP, .pollS, .wait])
    (h : s.ready = false) : exec i s = .next (s.finish (.refused s.whyTurnedAway)) := by
  simp only [List.mem_cons, List.not_mem_nil, or_false] at hi
  rcases hi with rfl | rfl | rfl | rfl | rfl <;> exact whenReady_not_ready h

/-- The host command table's rows but `NOP` are the ones rule R226 can turn away. -/
theorem commandRow_mem (m : Mode) {op : CmdOp} (h : op ≠ .nop) :
    commandRow m op ∈ [Instr.sendP, .sendS, .pollP, .pollS, .wait] := by
  cases op <;> cases m <;> simp_all [commandRow]

/-- Settles O44 by `exec_turned_away`. -/
theorem commandsAreTurnedAwayUntilReady : Obligations.CommandsAreTurnedAwayUntilReady := by
  intro s i hi hr
  exact exec_turned_away hi hr

end Sys2Proof.Machine
end

section
/-! PROOFS. The invariant of the machine (10_state.md section 6): reset establishes it, each operation keeps it, and with
it every step keeps it; under it the machine stops only at the two refusals. -/

namespace Sys2Proof.Machine

open Sys2Proof Sys2Proof.Safety

/-- A sample of the ports keeps `su_t_entry` within `CW` bits, the sample at the release of reset too. -/
theorem State.sample_suTEntry_lt {s : State} (h : s.suTEntry < 2 ^ s.cfg.cw) : s.sample.suTEntry < 2 ^ s.cfg.cw := by
  unfold State.sample
  split <;> rw [State.arrive_suTEntry] <;> split
  · exact Nat.mod_lt _ (Nat.two_pow_pos _)
  · exact h
  · exact Nat.mod_lt _ (Nat.two_pow_pos _)
  · exact h

/-- An accepted packet poll with too small a capacity is refused by name (rule R199). -/
theorem execPollP_of_short {s : State} (hr : s.ready = true) (hc : s.cmd.capacity < s.cfg.mtu) :
    execPollP s = .refused .capacityShort := by
  rw [execPollP, whenReady_ready hr, if_pos hc]

end Sys2Proof.Machine

namespace Sys2Proof.Safety

open Sys2Proof Sys2Proof.Machine

/-- A sample that does not show the reset input keeps the invariant. -/
theorem Inv.sample {s : State} (hi : Inv s) (hr : s.sample.rst = false) : Inv s.sample where
  config := by simpa using hi.config
  receiver := by simpa using hi.receiver
  startup := by simpa using hi.startup
  stream := by simpa using hi.stream
  entry := by simpa using State.sample_suTEntry_lt hi.entry
  hostMemory := by simpa using hi.hostMemory
  held := by simpa using hi.held
  history := by simpa using hi.history
  inReset := by simp [hr]

/-- Reset leads into the invariant from every state with a well-formed configuration and host memory. -/
theorem inv_applyReset {s : State} (hc : s.cfg.wf = true) (hm : s.hostBuf.wf = true) : Inv s.applyReset where
  config := hc
  receiver := rxInv_reset _
  startup := fun _ => ⟨rfl, rfl⟩
  stream := fun _ => rfl
  entry := s.now_lt
  hostMemory := hm
  held := fun h => absurd rfl h
  history := List.nil_suffix
  inReset := fun _ => rfl

/-- The state after reset meets the invariant, whatever the clock reads and whatever is waiting. -/
theorem inv_resetWith {cfg : Config} (clock : Nat) (q : List Byte) (hc : cfg.wf = true) :
    Inv (State.resetWith cfg clock q) where
  config := hc
  receiver := rxInv_reset _
  startup := fun _ => ⟨rfl, rfl⟩
  stream := fun _ => rfl
  entry := Nat.mod_lt _ (Nat.two_pow_pos _)
  hostMemory := rfl
  held := fun h => absurd rfl h
  history := List.nil_suffix
  inReset := fun h => by cases h

/-- A command's end touches no field the invariant speaks of. -/
theorem Inv.finish {s : State} (hi : Inv s) (o : CmdOutcome) : Inv (s.finish o) := { hi with }

/-- `Operational` may be entered from every state of the invariant while reset is low. -/
theorem Inv.enterSu_operational {s : State} (hi : Inv s) (hr : s.rst = false) : Inv (s.enterSu .operational) :=
  { hi with
    startup := fun h => absurd rfl h
    entry := s.now_lt
    inReset := fun h => by cases hr.symm.trans h }

/-- Before `Operational` a byte may be thrown away and `DrainInput` entered while reset is low. -/
theorem Inv.enterSu_drainInput {s : State} (hi : Inv s) (hr : s.rst = false) (hne : s.suState ≠ .operational)
    (q : List Byte) (n : Nat) : Inv (State.enterSu { s with rxq := q, drained := n } .drainInput) :=
  { hi with
    startup := fun _ => hi.startup hne
    entry := s.now_lt
    inReset := fun h => by cases hr.symm.trans h }

/-- The bytes of a send join `TXH` and the history alike. -/
theorem Inv.emit {s : State} (hi : Inv s) (bytes : List Byte) : Inv (s.emit bytes) :=
  { hi with
    history := by
      obtain ⟨before, hb⟩ := hi.history
      exact ⟨before, by rw [State.emit_txh, State.emit_wire, ← hb, List.append_assoc]⟩ }

/-- The fault is taken in `Operational` only. -/
theorem Inv.raiseFatal {s : State} (hi : Inv s) (hop : s.suState = .operational) : Inv s.raiseFatal :=
  { hi with startup := fun h => absurd hop h }

/-- In packet mode and `Operational` the receiver may move on to any registers that meet its part, the frame reported
before given up. -/
theorem Inv.receive {s : State} (hi : Inv s) (hop : s.suState = .operational) (hm : s.cfg.mode = .packet) (q : List Byte)
    {r : Rx} (hrx : RxInv s.cfg.mtu r) : Inv ((s.releaseFrame.setRxq q).setRx r) :=
  { hi with
    receiver := hrx
    startup := fun h => absurd hop h
    stream := fun h => by cases hm.symm.trans h
    held := fun h => absurd rfl h }

/-- A frame may be reported where the receiver is in `Idle`. -/
theorem Inv.reportFrame {s : State} (hi : Inv s) (hidle : s.rx.state = .idle) : Inv s.reportFrame :=
  { hi with held := fun _ => ⟨hidle, rfl⟩ }

/-- A stream poll keeps the invariant. -/
theorem Inv.pollStream {s : State} (hi : Inv s) (q bytes : List Byte) :
    Inv { s.releaseFrame with rxq := q, hostBuf := s.hostBuf.writeAll 0 bytes } :=
  { hi with
    hostMemory := Mem.wf_writeAll _ _ _ hi.hostMemory
    held := fun h => absurd rfl h }

/-- In packet mode `MTU` fits into a length byte (rule R9). -/
theorem Inv.mtu_le {s : State} (hi : Inv s) (hm : s.cfg.mode = .packet) : s.cfg.mtu ≤ 255 :=
  (Config.wf_conditions hi.config).2.1 hm

/-- Every host command keeps the invariant. -/
theorem Inv.exec_command {s t : State} {op : CmdOp} (hi : Inv s)
    (h : exec (commandRow s.cfg.mode op) s = .next t) : Inv t := by
  rcases exec_command_next h with ⟨-, rfl⟩ | ⟨-, -, rfl⟩ | ⟨-, hr, -, rfl⟩ | ⟨-, -, -, -, rfl⟩ |
    ⟨-, hr, hm, -, r, done, q, hp, rfl⟩ | ⟨-, -, -, rfl⟩ | ⟨-, -, rfl⟩
  · exact { hi with }
  · exact hi.finish _
  · exact hi.raiseFatal (s.ready_eq_true.mp hr).1
  · exact (hi.emit _).finish _
  · obtain ⟨r', done', q', hp', hrx, hdone, -, -⟩ := Rx.poll_answers (hi.mtu_le hm) s.rxq hi.receiver
    obtain ⟨rfl, rfl, rfl⟩ : r' = r ∧ done' = done ∧ q' = q := by simpa [hp'] using hp
    have hrec := hi.receive (s.ready_eq_true.mp hr).1 hm q' hrx
    cases done' with
    | false => exact hrec.finish _
    | true => exact hrec.reportFrame (hdone rfl).1
  · exact (hi.pollStream _ _).finish _
  · exact hi.finish _

/-- The only ways a host command in the invariant does not answer a next state: a send without its payload, a packet poll
without its capacity. -/
theorem Inv.exec_command_total {s : State} (hi : Inv s) (op : CmdOp) :
    (∃ t, exec (commandRow s.cfg.mode op) s = .next t) ∨
    (exec (commandRow s.cfg.mode op) s = .refused .payloadShort ∧ op = .send ∧
      s.cmd.payload.length < s.cmd.lengthOf s.cfg) ∨
    (exec (commandRow s.cfg.mode op) s = .refused .capacityShort ∧ s.cfg.mode = .packet ∧ op = .poll ∧
      s.cmd.capacity < s.cfg.mtu) := by
  cases hready : s.ready with
  | false =>
    left
    by_cases hop : op = .nop
    · exact ⟨_, by rw [hop]; rfl⟩
    · exact ⟨_, exec_turned_away (commandRow_mem s.cfg.mode hop) hready⟩
  | true =>
    cases op with
    | nop => exact .inl ⟨_, rfl⟩
    | wait => exact .inl ⟨_, whenReady_ready hready⟩
    | send =>
      have hrow : exec (commandRow s.cfg.mode .send) s = sendBytes s s.cfg.mode := by
        cases s.cfg.mode <;> exact whenReady_ready hready
      rw [hrow]
      rcases sendBytes_total s s.cfg.mode with h | ⟨h, hl⟩
      · exact .inl h
      · exact .inr (.inl ⟨h, rfl, hl⟩)
    | poll =>
      cases hm : s.cfg.mode with
      | stream => exact .inl ⟨_, whenReady_ready hready⟩
      | packet =>
        by_cases hc : s.cfg.mtu ≤ s.cmd.capacity
        · obtain ⟨r, done, q, hp, -⟩ := Rx.poll_answers (hi.mtu_le hm) s.rxq hi.receiver
          exact .inl ⟨_, execPollP_of_poll hready hc hp⟩
        · exact .inr (.inr ⟨execPollP_of_short hready (by omega), rfl, rfl, by omega⟩)

/-- One byte of a packet poll keeps the invariant. -/
theorem Inv.receive_byte {s : State} {b : Byte} {r : Rx} {done : Bool} (hi : Inv s) (hp : s.pollingByBytes = true)
    (hb : s.rx.byte s.cfg.mtu b = some (r, done)) (q : List Byte) :
    Inv (if done then ((s.releaseFrame.setRxq q).setRx r).reportFrame else (s.releaseFrame.setRxq q).setRx r) := by
  obtain ⟨-, hm, -, hop, -, -⟩ := s.pollingByBytes_eq_true.mp hp
  have hmtu := hi.mtu_le hm
  have hrec := hi.receive hop hm q (Rx.byte_keeps_inv hmtu hi.receiver hb)
  cases done with
  | false => exact hrec
  | true => exact hrec.reportFrame (Rx.byte_done hmtu hb).1

end Sys2Proof.Safety

namespace Sys2Proof.Machine

open Sys2Proof Sys2Proof.Safety

/-- Settles O54 by `inv_resetWith`. -/
theorem invariantHoldsAtReset : Obligations.InvariantHoldsAtReset :=
  fun _ clock q hc => inv_resetWith clock q hc

/-- Settles O55: over the four kinds of step of `step_next`, each by the lemma on its operation. -/
theorem everyStepKeepsTheInvariant : Obligations.EveryStepKeepsTheInvariant := by
  intro s t hi h
  rcases step_next h with ⟨-, rfl⟩ | ⟨hr, -, hsu⟩ | ⟨hr, c, cs, -, -, -, hexec⟩ | ⟨hr, -, hp, b, q, -, r, done, hb, rfl⟩
  · exact inv_applyReset (by simpa using hi.config) (by simpa using hi.hostMemory)
  · have his := hi.sample hr
    rcases hsu with rfl | ⟨-, -, rfl⟩ | ⟨hne, -, b, q, -, rfl⟩
    · exact his
    · exact his.enterSu_operational hr
    · exact his.enterSu_drainInput hr (by simpa using hne) q _
  · exact (hi.sample hr).exec_command hexec
  · exact (hi.sample hr).receive_byte hp (by simpa using hb) q

/-- Settles O56: reset and the startup row always answer, a receiver row does by `Rx.byte_isSome`, a command by
`Inv.exec_command_total`. -/
theorem stepNeverFaults : Obligations.StepNeverFaults := by
  intro s hi
  rcases step_cases s with ⟨-, e⟩ | ⟨hr, hc, -⟩ | ⟨hr, c, cs, hc, -, e⟩ | ⟨hr, hc, hp, b, q, hq, -⟩
  · exact .inl ⟨_, e⟩
  · exact .inl ⟨_, step_suStep hr hc⟩
  · have htotal := (hi.sample hr).exec_command_total c.op
    rw [State.sample_cfg, ← e] at htotal
    rwa [State.cmd_of_cons hc] at htotal ⊢
  · obtain ⟨r, done, hb⟩ := Rx.byte_isSome b hi.receiver
    exact .inl ⟨_, step_of_byte hr hc hp hq hb⟩

/-- Settles O50: in the invariant the fault comes in `Operational` only, where the startup row is the identity, and while
`ready` is 0 a command is turned away and no byte is taken by a poll. -/
theorem faultLastsUntilReset : Obligations.FaultLastsUntilReset := by
  intro s t hi hf hr h
  have hop : s.suState = .operational := by
    by_contra hne
    simp [(hi.startup hne).2] at hf
  rcases step_next h with ⟨hrst, -⟩ | ⟨-, -, hsu⟩ | ⟨-, c, cs, -, -, -, hexec⟩ | ⟨-, -, hp, -⟩
  · simp [hrst] at hr
  · rcases hsu with rfl | ⟨hne, -⟩ | ⟨hne, -⟩
    · simp [hf, State.ready]
    · exact absurd hop hne
    · exact absurd hop hne
  · have hready : s.sample.ready = false := by simp [State.ready, hf]
    have hturned : t = { s.sample with cmds := s.sample.cmds.tail } ∨ t = s.sample.finish (.refused s.sample.whyTurnedAway) := by
      rcases exec_command_next hexec with ⟨-, ht⟩ | ⟨-, -, ht⟩ | ⟨-, hr', -⟩ | ⟨-, hr', -⟩ | ⟨-, hr', -⟩ | ⟨-, hr', -⟩ |
        ⟨-, hr', -⟩
      · exact .inl ht
      · exact .inr ht
      all_goals simp [hready] at hr'
    rcases hturned with rfl | rfl <;> simp [State.ready, hf]
  · obtain ⟨-, -, -, -, hf', -⟩ := s.sample.pollingByBytes_eq_true.mp hp
    simp [hf] at hf'

end Sys2Proof.Machine
end

section
/-! PROOFS. The decoder and the encoder (30_encoding.md): every key is a table's key, a reserved startup code or the reset
input at 0; decode undoes encode, and what a key decodes to is its row of the opcode table. -/

namespace Sys2Proof.Machine

open Sys2Proof

/-- Every two bits are the code of a receiver state (rule R113). -/
theorem RxState.code_ofCode (c : BitVec 2) : (RxState.ofCode c).code = c := by
  revert c
  decide

/-- Every receiver key is a state code and a byte (rule R106). -/
theorem exists_keyK (bits : BitVec 10) : ∃ st b, bits = keyK st b := by
  refine ⟨RxState.ofCode (bits.extractLsb' 8 2), bits.extractLsb' 0 8, ?_⟩
  apply BitVec.eq_of_getLsbD_eq
  intro i hi
  rw [keyK_bit, RxState.code_ofCode]
  by_cases h8 : i < 8
  · simp [h8]
  · simp [h8, show i - 8 < 2 by omega, show 8 + (i - 8) = i by omega]

/-- A startup key below the reserved code is a state code and two bits (rule R108). -/
theorem exists_keyS (bits : BitVec 4) : 12 ≤ bits.toNat ∨ ∃ st e a, bits = keyS st e a := by
  have hkey : 12 ≤ bits.toNat ∨ bits = keyS .waitInput (bits.getLsbD 1) (bits.getLsbD 0) ∨
      bits = keyS .drainInput (bits.getLsbD 1) (bits.getLsbD 0) ∨
      bits = keyS .operational (bits.getLsbD 1) (bits.getLsbD 0) := by
    revert bits
    decide
  rcases hkey with h | h | h | h
  · exact .inl h
  all_goals exact .inr ⟨_, _, _, h⟩

/-- Every host command key is a mode and a command code (rule R110). -/
theorem exists_keyH (bits : BitVec 3) : ∃ m op, bits = keyH m op := by
  refine ⟨Mode.ofCode (bits.extractLsb' 2 1), CmdOp.ofCode (bits.extractLsb' 0 2), ?_⟩
  revert bits
  decide

/-- Every key there is: of one of the three tables, the two reset inputs, or the reserved startup code (rule R113). -/
theorem key_forms (key : Key) :
    (∃ st b, key = .k (keyK st b)) ∨ (∃ st e a, key = .s (keyS st e a)) ∨ (∃ m op, key = .h (keyH m op)) ∨
    key = .rst 1#1 ∨ (∃ bits, key = .s bits ∧ 12 ≤ bits.toNat) ∨ key = .rst 0#1 := by
  cases key with
  | k bits =>
    obtain ⟨st, b, rfl⟩ := exists_keyK bits
    exact .inl ⟨st, b, rfl⟩
  | s bits =>
    rcases exists_keyS bits with h | ⟨st, e, a, rfl⟩
    · exact .inr (.inr (.inr (.inr (.inl ⟨bits, rfl, h⟩))))
    · exact .inr (.inl ⟨st, e, a, rfl⟩)
  | h bits =>
    obtain ⟨m, op, rfl⟩ := exists_keyH bits
    exact .inr (.inr (.inl ⟨m, op, rfl⟩))
  | rst bit =>
    rcases BitVec.eq_zero_or_eq_one bit with rfl | rfl
    · exact .inr (.inr (.inr (.inr (.inr rfl))))
    · exact .inr (.inr (.inr (.inl rfl)))

theorem decode_keyS (mtu : Nat) (remaining : Byte) (st : SuState) (e a : Bool) :
    decode mtu remaining (.s (keyS st e a)) = .ok (startupRow st e a) :=
  decodeS_keyS st e a

theorem decode_keyH (mtu : Nat) (remaining : Byte) (m : Mode) (op : CmdOp) :
    decode mtu remaining (.h (keyH m op)) = .ok (commandRow m op) :=
  congrArg Except.ok (decodeH_keyH m op)

/-- The startup state code `0b11` has no row (rule R113 a). -/
theorem decode_reserved (mtu : Nat) (remaining : Byte) {bits : BitVec 4} (h : 12 ≤ bits.toNat) :
    decode mtu remaining (.s bits) = .error .reservedSuState := by
  have hbits : 12 ≤ bits.toNat → decodeS bits = .error .reservedSuState := by
    revert bits
    decide
  exact hbits h

/-- Settles O5: the encoder's key is a table's key, and the table's row at it is the instruction, by the further condition
of the row where it has one. -/
theorem decodeOfEncodeIsTheInstruction : Obligations.DecodeOfEncodeIsTheInstruction := by
  intro mtu remaining i hwf
  cases i
  case create => rfl
  case suExpireWait | suFirst | suHoldWait | suExpireDrain | suDrain | suHoldDrain | suDone =>
    exact decode_keyS mtu remaining _ _ _
  case nop | sendP | sendS | pollP | pollS | wait => exact decode_keyH mtu remaining _ _
  case rxSync1 | rxSync2 => exact decode_receiver_key mtu remaining _ _
  all_goals
    refine (decode_receiver_key mtu remaining _ _).trans (congrArg Except.ok ?_)
    simpa [receiverRow, Instr.wf] using hwf

/-- The row of the receiver table meets its own further condition (rule R107). -/
theorem receiverRow_wf (mtu : Nat) (remaining : Byte) (st : RxState) (b : Byte) :
    (receiverRow mtu remaining st b).wf mtu remaining = true := by
  cases st <;> simp only [receiverRow] <;> split <;> simp_all [Instr.wf]

/-- Every bit of a receiver key is kept by its row: encode gives the key back. -/
theorem encode_receiverRow (mtu : Nat) (remaining : Byte) (st : RxState) (b : Byte) :
    encode (receiverRow mtu remaining st b) = .k (keyK st b) := by
  cases st <;> simp only [receiverRow] <;> split <;> simp_all [encode]

/-- Of a startup key its row keeps the bits it examines; it has no further condition (rule R109). -/
theorem startupRow_meets (mtu : Nat) (remaining : Byte) (st : SuState) (e a : Bool) :
    (startupRow st e a).wf mtu remaining = true ∧ (tableRow (startupRow st e a)).selects (.s (keyS st e a)) = true ∧
    (encode (startupRow st e a)).width = 4 ∧
    (encode (startupRow st e a)).toNat &&& (tableRow (startupRow st e a)).mask =
      (keyS st e a).toNat &&& (tableRow (startupRow st e a)).mask := by
  cases st <;> cases e <;> cases a <;> exact ⟨rfl, rfl, rfl, rfl⟩

/-- Of a command key its row keeps the bits it examines; it has no further condition (rule R111). -/
theorem commandRow_meets (mtu : Nat) (remaining : Byte) (m : Mode) (op : CmdOp) :
    (commandRow m op).wf mtu remaining = true ∧ (tableRow (commandRow m op)).selects (.h (keyH m op)) = true ∧
    (encode (commandRow m op)).width = 3 ∧
    (encode (commandRow m op)).toNat &&& (tableRow (commandRow m op)).mask =
      (keyH m op).toNat &&& (tableRow (commandRow m op)).mask := by
  cases m <;> cases op <;> exact ⟨rfl, rfl, rfl, rfl⟩

/-- The row of the receiver table meets its `match` and `mask`: the mask shows the whole key or the state code. -/
theorem receiverRow_selects (mtu : Nat) (remaining : Byte) (st : RxState) (b : Byte) :
    (tableRow (receiverRow mtu remaining st b)).selects (.k (keyK st b)) = true := by
  rw [← encode_receiverRow mtu remaining st b]
  cases st <;> simp only [receiverRow] <;> split
  · exact Laws.Row.rxSync1.2
  · exact (Laws.Row.rxSkip b).2
  · exact Laws.Row.rxSync2.2
  · exact (Laws.Row.rxResync b).2
  · exact (Laws.Row.rxLen b).2
  · exact (Laws.Row.rxBadlen b).2
  · exact (Laws.Row.rxData b).2
  · exact (Laws.Row.rxLast b).2

/-- Settles O6, over the forms of a key: the two without a row decode to nothing. -/
theorem decodedKeyMeetsItsTableRow : Obligations.DecodedKeyMeetsItsTableRow := by
  intro mtu remaining key i h
  rcases key_forms key with ⟨st, b, rfl⟩ | ⟨st, e, a, rfl⟩ | ⟨m, op, rfl⟩ | rfl | ⟨bits, rfl, hbits⟩ | rfl
  · cases (decode_receiver_key mtu remaining st b).symm.trans h
    refine ⟨receiverRow_wf _ _ _ _, receiverRow_selects _ _ _ _, ?_, ?_⟩ <;> rw [encode_receiverRow]
  · cases (decode_keyS mtu remaining st e a).symm.trans h
    exact startupRow_meets mtu remaining st e a
  · cases (decode_keyH mtu remaining m op).symm.trans h
    exact commandRow_meets mtu remaining m op
  · cases h
    exact ⟨rfl, rfl, rfl, rfl⟩
  · cases (decode_reserved mtu remaining hbits).symm.trans h
  · cases h

/-- Settles O7, over the forms of a key: a table's key has its row, the two others have none. -/
theorem onlyTheReservedKeysAreRejected : Obligations.OnlyTheReservedKeysAreRejected := by
  intro mtu remaining key
  constructor
  · rintro ⟨err, h⟩
    rcases key_forms key with ⟨st, b, rfl⟩ | ⟨st, e, a, rfl⟩ | ⟨m, op, rfl⟩ | rfl | hres | hrst
    · cases (decode_receiver_key mtu remaining st b).symm.trans h
    · cases (decode_keyS mtu remaining st e a).symm.trans h
    · cases (decode_keyH mtu remaining m op).symm.trans h
    · cases h
    · exact .inl hres
    · exact .inr hrst
  · rintro (⟨bits, rfl, hbits⟩ | rfl)
    · exact ⟨_, decode_reserved mtu remaining hbits⟩
    · exact ⟨_, rfl⟩

/-- Settles O4: eighteen closed keys, each decoded. -/
theorem writtenOutKeysDecode : Obligations.WrittenOutKeysDecode := by
  unfold Obligations.WrittenOutKeysDecode
  decide

end Sys2Proof.Machine
end

section
/-! PROOFS. What a step leaves alone, and what it alone may do: the configuration, the receive source, the commands, the wire,
the fault, the receiver in stream mode, a reported frame (10_state.md section 7, 20_memory.md, 60_exceptions.md). -/

namespace Sys2Proof.Machine

open Sys2Proof

/-- What every host command has in common: it leaves the configuration, frees the port, and takes bytes from the head of
the receive source only. -/
theorem exec_command_frame {s t : State} {op : CmdOp} (h : exec (commandRow s.cfg.mode op) s = .next t) :
    t.cfg = s.cfg ∧ t.pollGrain = s.pollGrain ∧ t.cmds = s.cmds.tail ∧ ∃ consumed, s.rxq = consumed ++ t.rxq := by
  rcases exec_command_next h with ⟨-, rfl⟩ | ⟨-, -, rfl⟩ | ⟨-, -, -, rfl⟩ | ⟨-, -, -, -, rfl⟩ |
    ⟨-, -, -, -, r, done, q, hp, rfl⟩ | ⟨-, -, -, rfl⟩ | ⟨-, -, rfl⟩
  case inr.inr.inr.inr.inl =>
    cases done <;> exact ⟨rfl, rfl, rfl, Rx.poll_rest hp⟩
  case inr.inr.inr.inr.inr.inl => exact ⟨rfl, rfl, rfl, _, (List.take_append_drop _ _).symm⟩
  all_goals exact ⟨rfl, rfl, rfl, [], rfl⟩

/-- A host command appends the same bytes to `TXH` and to the history, and only an accepted send appends any. -/
theorem exec_command_emits {s t : State} {op : CmdOp} (h : exec (commandRow s.cfg.mode op) s = .next t) :
    ∃ bytes, t.wire = s.wire ++ bytes ∧ t.txh = s.txh ++ bytes ∧ (bytes ≠ [] → s.ready = true ∧ op = .send) := by
  rcases exec_command_next h with ⟨-, rfl⟩ | ⟨-, -, rfl⟩ | ⟨-, -, -, rfl⟩ | ⟨hop, hr, -, -, rfl⟩ |
    ⟨-, -, -, -, r, done, q, hp, rfl⟩ | ⟨-, -, -, rfl⟩ | ⟨-, -, rfl⟩
  case inr.inr.inr.inl => exact ⟨_, rfl, rfl, fun _ => ⟨hr, hop⟩⟩
  case inr.inr.inr.inr.inl => cases done <;> exact ⟨[], by simp, by simp, absurd rfl⟩
  all_goals exact ⟨[], (List.append_nil _).symm, (List.append_nil _).symm, absurd rfl⟩

/-- A host command that is no poll leaves the receiver and the frame the host may read; in stream mode a poll leaves the
receiver too. -/
theorem exec_command_keeps_receiver {s t : State} {op : CmdOp} (h : exec (commandRow s.cfg.mode op) s = .next t) :
    (op ≠ .poll → t.frameLen = s.frameLen) ∧ (op ≠ .poll ∨ s.cfg.mode = .stream → t.rx = s.rx) := by
  rcases exec_command_next h with ⟨-, rfl⟩ | ⟨-, -, rfl⟩ | ⟨-, -, -, rfl⟩ | ⟨-, -, -, -, rfl⟩ |
    ⟨hop, -, hm, -, r, done, q, -, rfl⟩ | ⟨hop, -, -, rfl⟩ | ⟨-, -, rfl⟩
  case inr.inr.inr.inr.inl => simp [hop, hm]
  case inr.inr.inr.inr.inr.inl => exact ⟨fun hne => absurd hop hne, fun _ => rfl⟩
  all_goals exact ⟨fun _ => rfl, fun _ => rfl⟩

/-- A host command sets the fault only as an accepted send longer than `MTU`. -/
theorem exec_command_faults {s t : State} {op : CmdOp} (h : exec (commandRow s.cfg.mode op) s = .next t)
    (hs : s.fault = false) (ht : t.fault = true) :
    op = .send ∧ s.ready = true ∧ s.cfg.mtu < s.cmd.lengthOf s.cfg ∧ t = s.raiseFatal := by
  rcases exec_command_next h with ⟨-, rfl⟩ | ⟨-, -, rfl⟩ | hfatal | ⟨-, -, -, -, rfl⟩ |
    ⟨-, -, -, -, r, done, q, -, rfl⟩ | ⟨-, -, -, rfl⟩ | ⟨-, -, rfl⟩
  case inr.inr.inl => exact hfatal
  case inr.inr.inr.inr.inl => cases done <;> cases hs.symm.trans ht
  all_goals cases hs.symm.trans ht

/-- A `send` at the port is a command that was presented: the idle value of the port is `NOP`. -/
theorem State.cmds_ne_nil_of_send {s : State} (h : s.cmd.op = .send) : s.cmds ≠ [] := by
  intro hnil
  simp [State.cmd, hnil, Command.idle] at h

/-- Reset leaves bytes on the wire only where an accepted send is at the port. -/
theorem State.cutOff_ne_nil {s : State} (h : s.cutOff ≠ []) : s.ready = true ∧ s.cmd.op = .send := by
  cases hs : s.sending with
  | false => exact absurd (State.cutOff_of_not_sending hs) h
  | true =>
    obtain ⟨hr, hop, -⟩ := s.sending_eq_true.mp hs
    exact ⟨hr, hop⟩

/-- What the sample of the ports makes of `RXQ`: the line's bytes join the tail, none with an empty schedule. -/
theorem State.sample_rxq (s : State) : s.sample.rxq = s.rxq ++ (s.inputs.head?.map Input.line).getD [] := by
  unfold State.sample
  split <;> rename_i hin <;> simp [hin, State.quietInput]

/-- What the host reads depends on the frame's length and the buffer only. -/
theorem State.bufData_congr {s t : State} (hl : t.frameLen = s.frameLen) (hr : t.rx = s.rx) (reading index : Nat) :
    t.bufData reading index = s.bufData reading index := by
  simp [State.bufData, hl, hr]

/-- Settles O51: the sample leaves the configuration, and so does every operation. -/
theorem configurationNeverChanges : Obligations.ConfigurationNeverChanges := by
  intro s t h
  rcases step_next h with ⟨-, rfl⟩ | ⟨-, -, hsu⟩ | ⟨-, c, cs, -, -, -, hexec⟩ | ⟨-, -, -, b, q, -, r, done, -, rfl⟩
  · simp
  · rcases hsu with rfl | ⟨-, -, rfl⟩ | ⟨-, -, b, q, -, rfl⟩ <;> simp
  · obtain ⟨hcfg, hgrain, -, -⟩ := exec_command_frame hexec
    simp [hcfg, hgrain]
  · cases done <;> simp

/-- Settles O47: the sample appends, and what a step takes it takes from the head. -/
theorem receiveSourceIsFirstInFirstOut : Obligations.ReceiveSourceIsFirstInFirstOut := by
  intro s t h
  refine ⟨s.sample_rxq, ?_⟩
  rcases step_next h with ⟨-, rfl⟩ | ⟨-, -, hsu⟩ | ⟨-, c, cs, -, -, -, hexec⟩ | ⟨-, -, -, b, q, hq, r, done, -, rfl⟩
  · exact ⟨[], rfl⟩
  · rcases hsu with rfl | ⟨-, -, rfl⟩ | ⟨-, -, b, q, hq, rfl⟩
    · exact ⟨[], rfl⟩
    · exact ⟨[], rfl⟩
    · exact ⟨[b], hq⟩
  · obtain ⟨-, -, -, hconsumed⟩ := exec_command_frame hexec
    exact hconsumed
  · cases done <;> exact ⟨[b], hq⟩

/-- Settles O48: a host command frees the port, a startup row and a payload byte before the last do not, reset drops all. -/
theorem commandsFinishInOrder : Obligations.CommandsFinishInOrder := by
  intro s t h
  rcases step_next h with ⟨hr, rfl⟩ | ⟨hr, -, hsu⟩ | ⟨hr, c, cs, -, -, -, hexec⟩ | ⟨hr, -, -, b, q, -, r, done, -, rfl⟩
  · simp [hr]
  all_goals refine ⟨fun hrst => by simp [hr] at hrst, fun _ => ?_⟩
  · rcases hsu with rfl | ⟨-, -, rfl⟩ | ⟨-, -, b, q, -, rfl⟩ <;> exact .inl rfl
  · obtain ⟨-, -, hcmds, -⟩ := exec_command_frame hexec
    exact .inr hcmds
  · cases done
    · exact .inl rfl
    · exact .inr rfl

/-- Settles O46: the bytes are those of `exec_command_emits`, or at reset those of `State.cutOff`. -/
theorem onlyASendAppendsToTheWire : Obligations.OnlyASendAppendsToTheWire := by
  intro s t h
  rcases step_next h with ⟨hr, rfl⟩ | ⟨hr, -, hsu⟩ | ⟨hr, c, cs, hc, hcmd, -, hexec⟩ |
    ⟨hr, -, -, b, q, -, r, done, -, rfl⟩
  · refine ⟨s.sample.cutOff, by simp, fun hne => ?_, by simp, by simp [hr]⟩
    obtain ⟨hready, hop⟩ := State.cutOff_ne_nil hne
    exact ⟨by simpa using hready, State.cmds_ne_nil_of_send hop, hop⟩
  · refine ⟨[], ?_, absurd rfl, by simp [hr], fun _ => ?_⟩ <;>
      rcases hsu with rfl | ⟨-, -, rfl⟩ | ⟨-, -, b, q, -, rfl⟩ <;> simp
  · obtain ⟨bytes, hwire, htxh, hne⟩ := exec_command_emits hexec
    refine ⟨bytes, by simpa using hwire, fun hb => ?_, by simp [hr], fun _ => by simpa using htxh⟩
    obtain ⟨hready, hop⟩ := hne hb
    exact ⟨by simpa using hready, by simp [hc], by rw [hcmd, hop]⟩
  · cases done <;> exact ⟨[], by simp, absurd rfl, by simp [hr], by simp⟩

/-- Settles O49: of all operations only `State.raiseFatal` sets the fault. -/
theorem onlyAnOversizeSendFaults : Obligations.OnlyAnOversizeSendFaults := by
  intro s t h hs ht
  have hsample : s.sample.fault = false := by simpa using hs
  rcases step_next h with ⟨-, rfl⟩ | ⟨-, -, hsu⟩ | ⟨-, c, cs, -, hcmd, -, hexec⟩ | ⟨-, -, -, b, q, -, r, done, -, rfl⟩
  · cases ht
  · rcases hsu with rfl | ⟨-, -, rfl⟩ | ⟨-, -, b, q, -, rfl⟩ <;> cases hsample.symm.trans ht
  · obtain ⟨hop, hready, hlen, rfl⟩ := exec_command_faults hexec hsample ht
    exact ⟨by rw [hcmd, hop], by simpa using hready, by simpa using hlen, rfl⟩
  · cases done <;> cases hsample.symm.trans ht

/-- Settles O52: in stream mode no packet poll runs, whole or byte by byte. -/
theorem streamModeLeavesTheReceiverAlone : Obligations.StreamModeLeavesTheReceiverAlone := by
  intro s t h hm hr
  rcases step_next h with ⟨hrst, -⟩ | ⟨-, -, hsu⟩ | ⟨-, c, cs, -, -, -, hexec⟩ | ⟨-, -, hp, -⟩
  · simp [hrst] at hr
  · rcases hsu with rfl | ⟨-, -, rfl⟩ | ⟨-, -, b, q, -, rfl⟩ <;> simp
  · simpa using (exec_command_keeps_receiver hexec).2 (.inr (by simpa using hm))
  · obtain ⟨-, hpacket, -⟩ := s.sample.pollingByBytes_eq_true.mp hp
    simp [hm] at hpacket

/-- Settles O53: without a poll the receiver and the frame's length stay, and with them what the host reads. -/
theorem reportedFrameIsStable : Obligations.ReportedFrameIsStable := by
  intro s t h hr hnopoll
  have hkeep : t.frameLen = s.frameLen ∧ t.rx = s.rx := by
    rcases step_next h with ⟨hrst, -⟩ | ⟨-, -, hsu⟩ | ⟨-, c, cs, hc, hcmd, -, hexec⟩ | ⟨-, hc, hp, -⟩
    · simp [hrst] at hr
    · rcases hsu with rfl | ⟨-, -, rfl⟩ | ⟨-, -, b, q, -, rfl⟩ <;> simp
    · have hop : c.op ≠ .poll := by simpa [hc, hcmd] using hnopoll
      obtain ⟨hlen, hrx⟩ := exec_command_keeps_receiver hexec
      exact ⟨by simpa using hlen hop, by simpa using hrx (.inl hop)⟩
    · obtain ⟨-, -, hpoll, -⟩ := s.sample.pollingByBytes_eq_true.mp hp
      simp [hc, hpoll] at hnopoll
  exact ⟨hkeep.1, hkeep.2, State.bufData_congr hkeep.1 hkeep.2⟩

/-- A send in either mode, accepted or not, leaves the receive side alone. -/
theorem send_keeps_receiver {s t : State} {mode : Mode} (h : whenReady s (sendBytes s mode) = .next t) :
    t.rx = s.rx ∧ t.frameLen = s.frameLen ∧ t.hostBuf = s.hostBuf := by
  rcases whenReady_next h with ⟨-, h⟩ | ⟨-, rfl⟩
  · rcases sendBytes_next h with ⟨-, rfl⟩ | ⟨-, -, rfl⟩ <;> exact ⟨rfl, rfl, rfl⟩
  · exact ⟨rfl, rfl, rfl⟩

/-- A startup row leaves the receive side alone. -/
theorem startup_keeps_receiver {s t : State} {st : SuState} {e a : Bool} (h : exec (startupRow st e a) s = .next t) :
    t.rx = s.rx ∧ t.frameLen = s.frameLen ∧ t.hostBuf = s.hostBuf := by
  rcases exec_startup_next h with rfl | ⟨-, -, rfl⟩ | ⟨-, -, -, b, q, -, rfl⟩ <;> exact ⟨rfl, rfl, rfl⟩

/-- A packet poll leaves the startup and the transmit side alone. -/
theorem pollPacket_keeps_startup {s t : State} (h : execPollP s = .next t) :
    t.suState = s.suState ∧ t.suTEntry = s.suTEntry ∧ t.txh = s.txh ∧ t.wire = s.wire ∧ t.fault = s.fault := by
  rcases execPollP_next h with ⟨-, rfl⟩ | ⟨-, -, r, done, q, -, rfl⟩
  · exact ⟨rfl, rfl, rfl, rfl, rfl⟩
  · cases done <;> exact ⟨rfl, rfl, rfl, rfl, rfl⟩

/-- Settles O45, instruction by instruction. -/
theorem eachSideKeepsToItsState : Obligations.EachSideKeepsToItsState := by
  constructor
  · intro s t i hi h
    simp only [List.mem_cons, List.not_mem_nil, or_false] at hi
    rcases hi with rfl | rfl | rfl | rfl | rfl | rfl | rfl | rfl | rfl | rfl
    · exact send_keeps_receiver h
    · exact send_keeps_receiver h
    · rcases whenReady_next h with ⟨-, h⟩ | ⟨-, rfl⟩
      · cases h
        exact ⟨rfl, rfl, rfl⟩
      · exact ⟨rfl, rfl, rfl⟩
    · exact startup_keeps_receiver (st := .waitInput) (e := true) (a := false) h
    · exact startup_keeps_receiver (st := .waitInput) (e := false) (a := true) h
    · exact startup_keeps_receiver (st := .waitInput) (e := false) (a := false) h
    · exact startup_keeps_receiver (st := .drainInput) (e := true) (a := false) h
    · exact startup_keeps_receiver (st := .drainInput) (e := false) (a := true) h
    · exact startup_keeps_receiver (st := .drainInput) (e := false) (a := false) h
    · exact startup_keeps_receiver (st := .operational) (e := false) (a := false) h
  · intro s t b i hi h
    simp only [List.mem_cons, List.not_mem_nil, or_false] at hi
    rcases hi with rfl | rfl | rfl | rfl | rfl | rfl | rfl | rfl | rfl | rfl
    · exact pollPacket_keeps_startup h
    · rcases whenReady_next h with ⟨-, h⟩ | ⟨-, rfl⟩
      · cases h
        exact ⟨rfl, rfl, rfl, rfl, rfl⟩
      · exact ⟨rfl, rfl, rfl, rfl, rfl⟩
    iterate 6
      · cases h
        exact ⟨rfl, rfl, rfl, rfl, rfl⟩
    · obtain ⟨r, -, rfl⟩ := storeRx_next (f := fun r => s.setRx r) h
      exact ⟨rfl, rfl, rfl, rfl, rfl⟩
    · obtain ⟨r, -, rfl⟩ := storeRx_next (f := fun r => (s.setRx r).reportFrame) h
      exact ⟨rfl, rfl, rfl, rfl, rfl⟩

end Sys2Proof.Machine
end

section
/-! PROOFS. The startup controller in time (40_startup.md): the wrap-safe clock difference, the way into `Operational`, the
runs on a silent line and with one byte, and that the drained bytes' values play no part. -/

namespace Sys2Proof.Machine

open Sys2Proof Sys2Proof.Safety

/-- The elapsed time of two readings `d` milliseconds apart, on either side of half the clock's range (rule R141). -/
theorem clockDiff_add {cw d : Nat} (t : Nat) (hcw : 1 ≤ cw) (hd : d < 2 ^ cw) :
    clockDiff cw ((t + d) % 2 ^ cw) (t % 2 ^ cw) = if d < 2 ^ (cw - 1) then (d : Int) else (d : Int) - 2 ^ cw := by
  obtain ⟨n, rfl⟩ : ∃ n, cw = n + 1 := ⟨cw - 1, by omega⟩
  have hdiff : ((t + d : Nat) : Int) - (t : Int) = d := by omega
  have hmod : (d : Int) % ((2 ^ (n + 1) : Nat) : Int) = d := by exact_mod_cast Nat.mod_eq_of_lt hd
  have hrange : ((2 ^ (n + 1) : Nat) : Int) = 2 * (2 ^ n : Nat) := by push_cast; ring
  have hrange' : (2 : Int) ^ (n + 1) = 2 * (2 ^ n : Nat) := by push_cast; ring
  rw [clockDiff_mod, clockDiff_eq_bmod, hdiff, Int.bmod_def, hmod, hrange, hrange', Nat.add_sub_cancel]
  generalize (2 : Nat) ^ n = half
  split <;> split <;> omega

/-- Settles O17 by `clockDiff_add`. -/
theorem elapsedTimeIsWrapSafe : Obligations.ElapsedTimeIsWrapSafe :=
  fun _ t _ hcw hd => clockDiff_add t hcw hd

/-- Settles O18: only the startup row of an expired timeout enters `Operational`. -/
theorem operationalOnlyAfterTheTimeout : Obligations.OperationalOnlyAfterTheTimeout := by
  intro s t h hne hop
  rcases step_next h with ⟨-, rfl⟩ | ⟨-, -, hsu⟩ | ⟨-, c, cs, -, -, -, hexec⟩ | ⟨-, -, hp, -⟩
  · cases hop
  · rcases hsu with rfl | ⟨-, he, rfl⟩ | ⟨-, -, b, q, -, rfl⟩
    · exact absurd (by simpa using hop) hne
    · have htime := s.sample.expired_eq_true.mp he
      simp only [State.sample_suState, State.sample_cfg] at htime
      refine ⟨fun hs => ?_, fun hs => ?_, rfl, rfl, by simp⟩ <;> simpa [hs] using htime
    · cases hop
  · rw [exec_command_keeps_suState hexec] at hop
    exact absurd (by simpa using hop) hne
  · obtain ⟨-, -, -, hs, -⟩ := s.sample.pollingByBytes_eq_true.mp hp
    exact absurd (by simpa using hs) hne

/-- Settles O19: at the timeout `SuStep` does not look at the bytes waiting. -/
theorem timeoutBeatsTheByte : Obligations.TimeoutBeatsTheByte := by
  intro s hr hc _ htime
  rw [step_suStep hr hc, suStep_of_expired (s.sample.expired_eq_true.mpr (by simpa using htime))]
  rfl

/-- Right after the clock was sampled no timeout is reached. -/
theorem State.not_expired_of_entry_now {s : State} (h : s.suTEntry = s.now) : s.expired = false := by
  have hzero : clockDiff s.cfg.cw s.now s.suTEntry = 0 := by simp [clockDiff, h]
  have hnot := mt s.expired_eq_true.mp (by simp [hzero])
  simpa using hnot

/-- Settles O20: the release of reset samples the clock, so the first evaluation is before the timeout. -/
theorem firstTransitionAfterReset : Obligations.FirstTransitionAfterReset := by
  intro s hrst hs hr hc
  have hentry := State.sample_release hrst hr
  have hnot := State.not_expired_of_entry_now hentry
  refine ⟨hentry, fun hq => ?_, fun b q hq => ?_⟩
  · rw [step_suStep hr hc, suStep_of_silence hnot hq]
  · rw [step_suStep hr hc, suStep_of_byte (by simp [hs]) hnot hq]
    simp only [State.enterSu, State.sample_drained, hentry]
    rfl

/-! ## Runs of the controller -/

/-- A run of `m` steps and then `n`. -/
theorem run_add {m n : Nat} {s t : State} (h : Host.Core.run core m s = .next t) :
    Host.Core.run core (m + n) s = Host.Core.run core n t := by
  induction m generalizing s with
  | zero =>
    cases h
    rw [Nat.zero_add]
  | succ m ih =>
    rw [Nat.add_right_comm]
    simp only [Host.Core.run] at h ⊢
    split at h
    · exact ih h
    · cases h
    · cases h

/-- A run and one step more. -/
theorem run_succ {n : Nat} {s t u : State} (h : Host.Core.run core n s = .next t) (hstep : step t = .next u) :
    Host.Core.run core (n + 1) s = .next u := by
  rw [run_add h]
  simp only [Host.Core.run]
  rw [show core.step t = .next u from hstep]

theorem silentFor_add (t m n : Nat) : silentFor t (m + n) = silentFor t m ++ silentFor (t + m) n := by
  simp [silentFor, List.range_add, Function.comp_def, Nat.add_assoc]

theorem silentFor_one (t : Nat) : silentFor t 1 = [silentAt t] := by
  simp [silentFor]

/-- The port shows no reset and no command now, and none is waiting. -/
structure NoCommand (s : State) : Prop where
  rst : s.rst = false
  cmds : s.cmds = []

/-- An evaluation at which the line delivers these bytes is one `SuStep` after they arrived. -/
theorem NoCommand.step_bytesAt {s : State} (h : NoCommand s) {u : Nat} {bytes : List Byte} {rest : List Input}
    (hin : s.inputs = bytesAt u bytes :: rest) :
    step s = .next (suStep { s with clock := u, rxq := s.rxq ++ bytes, cut := 0, inputs := rest }) := by
  have hsample : s.sample = { s with clock := u, rxq := s.rxq ++ bytes, cut := 0, inputs := rest } := by
    simp [State.sample, hin, State.arrive, bytesAt, h.rst]
  rw [step_suStep (by rw [hsample]; exact h.rst) (by rw [hsample]; exact h.cmds), hsample]

/-- A silent evaluation at which the timeout is not reached and no byte is waiting changes nothing but the ports. -/
theorem NoCommand.step_silent {s : State} (h : NoCommand s) {u : Nat} {rest : List Input} (hq : s.rxq = [])
    (hin : s.inputs = silentAt u :: rest) (hexp : ({ s with clock := u } : State).expired = false) :
    step s = .next { s with clock := u, cut := 0, inputs := rest } := by
  have hnot : ({ s with clock := u, rxq := s.rxq ++ [], cut := 0, inputs := rest } : State).expired = false := hexp
  rw [h.step_bytesAt (bytes := []) hin, suStep_of_silence hnot (by simp [hq]), List.append_nil]

/-- A silent evaluation at which the timeout is reached enters `Operational`. -/
theorem NoCommand.step_timeout {s : State} (h : NoCommand s) {u : Nat} {rest : List Input}
    (hin : s.inputs = silentAt u :: rest) (hexp : ({ s with clock := u } : State).expired = true) :
    step s = .next (State.enterSu { s with clock := u, cut := 0, inputs := rest } .operational) := by
  have hreached : ({ s with clock := u, rxq := s.rxq ++ [], cut := 0, inputs := rest } : State).expired = true := hexp
  rw [h.step_bytesAt (bytes := []) hin, suStep_of_expired hreached, List.append_nil]

/-- Before the timeout the first byte to come is thrown away and `DrainInput` is entered, whatever the byte. -/
theorem NoCommand.step_first {s : State} (h : NoCommand s) {u : Nat} {b : Byte} {rest : List Input} (hq : s.rxq = [])
    (hin : s.inputs = bytesAt u [b] :: rest) (hne : s.suState ≠ .operational)
    (hexp : ({ s with clock := u } : State).expired = false) :
    step s = .next (State.enterSu
      { s with clock := u, rxq := [], cut := 0, inputs := rest, drained := s.drained + 1 } .drainInput) := by
  have hbyte := suStep_of_byte (s := { s with clock := u, rxq := s.rxq ++ [b], cut := 0, inputs := rest }) hne hexp
    (b := b) (q := []) (by simp [hq])
  rw [h.step_bytesAt hin, hbyte]

/-- A run on a silent line below the timeout changes nothing but the ports. -/
theorem NoCommand.run_silent {s : State} (h : NoCommand s) {t n : Nat} {rest : List Input} (hq : s.rxq = [])
    (hin : s.inputs = silentFor t n ++ rest) (hexp : ∀ j < n, ({ s with clock := t + j } : State).expired = false) :
    ∃ c cut, Host.Core.run core n s = .next { s with clock := c, cut := cut, inputs := rest } := by
  induction n generalizing rest with
  | zero =>
    obtain rfl : s.inputs = rest := hin
    exact ⟨s.clock, s.cut, rfl⟩
  | succ n ih =>
    rw [silentFor_add, silentFor_one, List.append_assoc, List.singleton_append] at hin
    obtain ⟨c, cut, hrun⟩ := ih hin fun j hj => hexp j (by omega)
    have hquiet : NoCommand { s with clock := c, cut := cut, inputs := silentAt (t + n) :: rest } := ⟨h.rst, h.cmds⟩
    exact ⟨t + n, 0, run_succ hrun (hquiet.step_silent hq rfl (hexp n (by omega)))⟩

/-- The timeout at a clock reading `d` milliseconds after the one the state was entered at, in the range the controller
waits (rules R12, R141). -/
theorem State.expired_after {s : State} {e d : Nat} (hcw : 14 ≤ s.cfg.cw) (hentry : s.suTEntry = e % 2 ^ s.cfg.cw)
    (hd : d ≤ 5000) :
    ({ s with clock := e + d } : State).expired = true ↔
      s.suState = .waitInput ∧ 5000 ≤ d ∨ s.suState = .drainInput ∧ 1000 ≤ d := by
  have hhalf : 2 ^ 13 ≤ 2 ^ (s.cfg.cw - 1) := Nat.pow_le_pow_right (by omega) (by omega)
  have hfull : 2 ^ (s.cfg.cw - 1) ≤ 2 ^ s.cfg.cw := Nat.pow_le_pow_right (by omega) (by omega)
  have hdiff : clockDiff s.cfg.cw ((e + d) % 2 ^ s.cfg.cw) s.suTEntry = d := by
    rw [hentry, clockDiff_add e (by omega) (by omega), if_pos (by omega)]
  rw [State.expired_eq_true]
  simp only [State.now, hdiff]
  norm_cast

/-- Below the timeout of the state that was entered at reading `e`. -/
theorem State.not_expired_after {s : State} {e d : Nat} (hcw : 14 ≤ s.cfg.cw) (hentry : s.suTEntry = e % 2 ^ s.cfg.cw)
    (hd : d < 5000) (hdrain : s.suState = .drainInput → d < 1000) : ({ s with clock := e + d } : State).expired = false := by
  have hbelow : ¬ (s.suState = .waitInput ∧ 5000 ≤ d ∨ s.suState = .drainInput ∧ 1000 ≤ d) := by
    rintro (⟨-, h⟩ | ⟨hs, h⟩)
    · omega
    · exact absurd (hdrain hs) (by omega)
  simpa using mt (State.expired_after hcw hentry (d := d) (by omega)).mp hbelow

/-- After a reset on a silent line nothing happens before 5000 milliseconds have gone by. -/
theorem run_waiting {cfg : Config} (t0 : Nat) {n : Nat} (rest : List Input) (hcfg : cfg.wf = true) (hn : n ≤ 5000) :
    ∃ c cut, Host.Core.run core n { State.resetWith cfg t0 [] with inputs := silentFor t0 n ++ rest } =
      .next { State.resetWith cfg t0 [] with clock := c, cut := cut, inputs := rest } := by
  obtain ⟨-, -, -, hcw, -⟩ := Config.wf_conditions hcfg
  have hquiet : NoCommand { State.resetWith cfg t0 [] with inputs := silentFor t0 n ++ rest } := ⟨rfl, rfl⟩
  exact hquiet.run_silent rfl rfl fun j hj =>
    State.not_expired_after hcw rfl (by omega) fun h => by cases h

/-- Settles O21: `run_waiting` up to reading `t0 + 4999`, then the timeout. -/
theorem silentLineReachesOperationalAt5000 : Obligations.SilentLineReachesOperationalAt5000 := by
  intro cfg t0 hcfg
  obtain ⟨-, -, -, hcw, -⟩ := Config.wf_conditions hcfg
  refine ⟨fun k hk => ?_, ?_⟩
  · obtain ⟨c, cut, hrun⟩ := run_waiting t0 (silentFor (t0 + k) (5001 - k)) hcfg hk
    rw [← silentFor_add, Nat.add_sub_cancel' (by omega)] at hrun
    exact ⟨_, hrun, rfl, rfl⟩
  · obtain ⟨c, cut, hrun⟩ := run_waiting t0 (silentFor (t0 + 5000) 1) hcfg (Nat.le_refl 5000)
    rw [← silentFor_add, silentFor_one] at hrun
    have hquiet : NoCommand
        { State.resetWith cfg t0 [] with clock := c, cut := cut, inputs := [silentAt (t0 + 5000)] } := ⟨rfl, rfl⟩
    have hexp := (State.expired_after (s := State.resetWith cfg t0 []) (e := t0) hcw rfl (d := 5000) (by omega)).mpr
      (.inl ⟨rfl, by omega⟩)
    exact ⟨_, run_succ hrun (hquiet.step_timeout rfl hexp), rfl, rfl, rfl, rfl, rfl⟩

/-- The state in which the one byte, come `d` milliseconds after the reset at `t0`, has been drained. -/
def drainedOne (cfg : Config) (t0 d : Nat) : State :=
  { State.resetWith cfg t0 [] with suState := .drainInput, suTEntry := (t0 + d) % 2 ^ cfg.cw, drained := 1 }

/-- After a reset a byte that comes before the timeout is drained when it comes. -/
theorem run_first {cfg : Config} (t0 d : Nat) (b : Byte) (rest : List Input) (hcfg : cfg.wf = true) (hd : d < 5000) :
    ∃ c cut, Host.Core.run core (d + 1)
        { State.resetWith cfg t0 [] with inputs := silentFor t0 d ++ bytesAt (t0 + d) [b] :: rest } =
      .next { drainedOne cfg t0 d with clock := c, cut := cut, inputs := rest } := by
  obtain ⟨-, -, -, hcw, -⟩ := Config.wf_conditions hcfg
  obtain ⟨c, cut, hrun⟩ := run_waiting t0 (bytesAt (t0 + d) [b] :: rest) hcfg (Nat.le_of_lt hd)
  have hquiet : NoCommand
      { State.resetWith cfg t0 [] with clock := c, cut := cut, inputs := bytesAt (t0 + d) [b] :: rest } := ⟨rfl, rfl⟩
  have hexp := State.not_expired_after (s := State.resetWith cfg t0 []) (e := t0) hcw rfl hd fun h => by cases h
  exact ⟨t0 + d, 0, run_succ hrun (hquiet.step_first rfl rfl nofun hexp)⟩

/-- After that byte nothing happens before 1000 milliseconds more have gone by. -/
theorem run_draining {cfg : Config} (t0 d : Nat) (b : Byte) {n : Nat} (rest : List Input) (hcfg : cfg.wf = true)
    (hd : d < 5000) (hn : n ≤ 999) :
    ∃ c cut, Host.Core.run core (d + 1 + n)
        { State.resetWith cfg t0 [] with
          inputs := silentFor t0 d ++ bytesAt (t0 + d) [b] :: (silentFor (t0 + d + 1) n ++ rest) } =
      .next { drainedOne cfg t0 d with clock := c, cut := cut, inputs := rest } := by
  obtain ⟨-, -, -, hcw, -⟩ := Config.wf_conditions hcfg
  obtain ⟨c, cut, hrun⟩ := run_first t0 d b (silentFor (t0 + d + 1) n ++ rest) hcfg hd
  rw [run_add hrun]
  have hquiet : NoCommand
      { drainedOne cfg t0 d with clock := c, cut := cut, inputs := silentFor (t0 + d + 1) n ++ rest } := ⟨rfl, rfl⟩
  refine hquiet.run_silent rfl rfl fun j hj => ?_
  have hexp := State.not_expired_after (s := drainedOne cfg t0 d) (e := t0 + d) (d := 1 + j) hcw rfl (by omega)
    fun _ => by omega
  rwa [← Nat.add_assoc] at hexp

/-- Settles O22: `run_waiting` before the byte, `run_draining` after it, then the timeout of `DrainInput`. -/
theorem oneByteThenSilenceReachesOperational : Obligations.OneByteThenSilenceReachesOperational := by
  intro cfg t0 d b hcfg hd
  obtain ⟨-, -, -, hcw, -⟩ := Config.wf_conditions hcfg
  refine ⟨fun k hk => ?_, ?_⟩
  · by_cases hkd : k ≤ d
    · obtain ⟨c, cut, hrun⟩ := run_waiting t0
        (silentFor (t0 + k) (d - k) ++ bytesAt (t0 + d) [b] :: silentFor (t0 + d + 1) 1000) hcfg (n := k) (by omega)
      rw [← List.append_assoc, ← silentFor_add, Nat.add_sub_cancel' hkd] at hrun
      exact ⟨_, hrun, by simp [State.resetWith]⟩
    · obtain ⟨n, rfl⟩ : ∃ n, k = d + 1 + n := ⟨k - (d + 1), by omega⟩
      obtain ⟨c, cut, hrun⟩ := run_draining t0 d b (n := n) (silentFor (t0 + d + 1 + n) (1000 - n)) hcfg hd (by omega)
      rw [← silentFor_add, Nat.add_sub_cancel' (by omega)] at hrun
      exact ⟨_, hrun, by simp [drainedOne]⟩
  · obtain ⟨c, cut, hrun⟩ := run_draining t0 d b (silentFor (t0 + d + 1 + 999) 1) hcfg hd (Nat.le_refl 999)
    rw [← silentFor_add, silentFor_one, Nat.add_assoc _ 1 999] at hrun
    have hquiet : NoCommand
        { drainedOne cfg t0 d with clock := c, cut := cut, inputs := [silentAt (t0 + d + (1 + 999))] } := ⟨rfl, rfl⟩
    have hexp := (State.expired_after (s := drainedOne cfg t0 d) (e := t0 + d) hcw rfl (d := 1000) (by omega)).mpr
      (.inr ⟨rfl, by omega⟩)
    exact ⟨_, run_succ hrun (hquiet.step_timeout rfl hexp), rfl, rfl, rfl, rfl, rfl⟩

/-! ## The drained bytes' values -/

/-- `SuStep` does not touch the receiver. -/
@[simp] theorem suStep_rx (s : State) : (suStep s).rx = s.rx := by
  by_cases hop : s.suState = .operational
  · rw [suStep_operational hop]
  cases he : s.expired with
  | true => rw [suStep_of_expired he, State.enterSu_rx]
  | false =>
    cases hq : s.rxq with
    | nil => rw [suStep_of_silence he hq]
    | cons b q => rw [suStep_of_byte hop he hq, State.enterSu_rx]

/-- `SuStep` answers alike but for the bytes waiting, whatever their values. -/
theorem suStep_setRxq (s : State) {q : List Byte} (h : s.rxq.length = q.length) :
    ∃ q', q'.length = (suStep s).rxq.length ∧ suStep (s.setRxq q) = (suStep s).setRxq q' := by
  by_cases hop : s.suState = .operational
  · rw [suStep_operational hop, suStep_operational (s := s.setRxq q) hop]
    exact ⟨q, h.symm, rfl⟩
  cases he : s.expired with
  | true =>
    rw [suStep_of_expired he, suStep_of_expired (s := s.setRxq q) he]
    exact ⟨q, h.symm, rfl⟩
  | false =>
    cases hq : s.rxq with
    | nil =>
      obtain rfl : q = [] := by simpa [hq] using h.symm
      rw [suStep_of_silence he hq, suStep_of_silence (s := s.setRxq []) he rfl]
      exact ⟨[], by simp [hq], rfl⟩
    | cons b bs =>
      obtain ⟨c, cs, rfl⟩ : ∃ c cs, q = c :: cs := List.exists_cons_of_length_eq_add_one (by simpa [hq] using h.symm)
      rw [suStep_of_byte hop he hq, suStep_of_byte (s := s.setRxq (c :: cs)) hop he rfl]
      exact ⟨cs, by simpa [hq] using h.symm, rfl⟩

/-- Other bytes waiting before the sample are other bytes waiting after it, in front of what the line delivers. -/
theorem State.sample_setRxq (s : State) (q : List Byte) :
    (s.setRxq q).sample = s.sample.setRxq (q ++ (s.inputs.head?.map Input.line).getD []) := by
  cases hin : s.inputs with
  | nil => cases hr : s.rst <;> simp [State.sample, State.setRxq, hin, State.arrive, State.quietInput, hr, State.now]
  | cons i rest =>
    cases hr : s.rst <;> cases hi : i.rst <;>
      simp [State.sample, State.setRxq, hin, State.arrive, hr, hi, State.now]

/-- Settles O23: the step is `SuStep` in both runs. -/
theorem drainedBytesAreNotInterpreted : Obligations.DrainedBytesAreNotInterpreted := by
  intro s t q hr hc hlen _ h
  obtain rfl : suStep s.sample = t := by
    simpa using (step_suStep hr hc).symm.trans h
  refine ⟨by simp, ?_⟩
  obtain ⟨q', hq', heq⟩ := suStep_setRxq s.sample (q := q ++ (s.inputs.head?.map Input.line).getD [])
    (by rw [s.sample_rxq]; simp [hlen])
  refine ⟨q', hq', ?_⟩
  have hsample := s.sample_setRxq q
  have hstep : step (s.setRxq q) = .next (suStep (s.setRxq q).sample) :=
    step_suStep (by rw [hsample]; exact hr) (by rw [hsample]; exact hc)
  rw [hsample, heq] at hstep
  exact hstep

end Sys2Proof.Machine
end

section
/-! PROOFS. The receiver over lists of bytes (42_receive.md section 7): a run split in two, a payload and a frame byte by
byte, what a run's reports depend on, and bytes without the sync marker. -/

namespace Sys2Proof.Machine

open Sys2Proof Sys2Proof.Safety

/-! ## Runs -/

/-- A run over two lists, taken apart. -/
theorem Rx.run_split {mtu : Nat} {a b : List Byte} {r q : Rx} {fs : List (List (Option Byte))}
    (h : r.run mtu (a ++ b) = some (q, fs)) :
    ∃ p f g, r.run mtu a = some (p, f) ∧ p.run mtu b = some (q, g) ∧ fs = f ++ g := by
  rw [Rx.run_append] at h
  cases ha : r.run mtu a with
  | none => simp [ha] at h
  | some x =>
    cases hb : x.1.run mtu b with
    | none => simp [ha, hb] at h
    | some y =>
      simp only [ha, hb, Option.bind_some, Option.map_some, Option.some.injEq, Prod.mk.injEq] at h
      obtain ⟨rfl, rfl⟩ := h
      exact ⟨x.1, x.2, y.2, rfl, hb, rfl⟩

/-- A run over two lists, put together. -/
theorem Rx.run_trans {mtu : Nat} {a b : List Byte} {r p q : Rx} {f g : List (List (Option Byte))}
    (ha : r.run mtu a = some (p, f)) (hb : p.run mtu b = some (q, g)) : r.run mtu (a ++ b) = some (q, f ++ g) := by
  simp [Rx.run_append, ha, hb]

/-- A run of one byte. -/
theorem Rx.run_single {mtu : Nat} {b : Byte} {r q : Rx} {done : Bool} (h : r.byte mtu b = some (q, done)) :
    r.run mtu [b] = some (q, if done then [q.frame] else []) := by
  simp [Rx.run, h]

/-! ## The frame, byte by byte -/

/-- The sync marker, then a byte taken as a length, from `Idle`. -/
theorem Rx.run_header {mtu : Nat} {l : Byte} {r : Rx} (hr : r.state = .idle) (hl : legalLength mtu l = true) :
    r.run mtu [syncByte1, syncByte2, l] = some (r.len l, []) := by
  simp [Rx.run, Rx.byte, hr, hl, Rx.sync1, Rx.sync2, Rx.len]

/-- The sync marker, then a byte that is no length: noise, and the receiver is as it was. -/
theorem Rx.run_badHeader {mtu : Nat} {l : Byte} {r : Rx} (hr : r.state = .idle) (hl : legalLength mtu l = false) :
    r.run mtu [syncByte1, syncByte2, l] = some (r, []) := by
  obtain ⟨st, n, c, buf, acc⟩ := r
  obtain rfl : st = .idle := hr
  simp [Rx.run, Rx.byte, hl, Rx.sync1, Rx.sync2, Rx.badlen]

/-- The receiver after a payload byte was stored, more of them to come (rule R188). -/
def Rx.stored (b : Byte) (r : Rx) : Rx :=
  ⟨.readingPayload, r.remaining - 1, r.cursor + 1, r.buf.write r.cursor.toNat b, r.accepted⟩

/-- The receiver after the last payload byte was stored (rule R189). -/
def Rx.completed (b : Byte) (r : Rx) : Rx :=
  ⟨.idle, 0, r.cursor + 1, r.buf.write r.cursor.toNat b, r.accepted⟩

/-- `RX.DATA` is the row of a payload byte that is not the last. -/
theorem Rx.byte_of_data {mtu : Nat} {b : Byte} {r : Rx} (hs : r.state = .readingPayload) (hn : 1 < r.remaining.toNat)
    (hc : r.cursor.toNat < mtu) : r.byte mtu b = some (r.stored b, false) := by
  simp [Rx.byte, hs, hn, Rx.data_of_lt hc, Rx.stored]

/-- `RX.LAST` is the row of the last payload byte. -/
theorem Rx.byte_of_last {mtu : Nat} {b : Byte} {r : Rx} (hs : r.state = .readingPayload)
    (hn : ¬ 1 < r.remaining.toNat) (hc : r.cursor.toNat < mtu) : r.byte mtu b = some (r.completed b, true) := by
  simp only [Rx.byte, hs, if_neg hn, Rx.last_of_lt hc, Option.map_some, Rx.completed]

/-- A payload row that answers stored the byte inside the buffer. -/
theorem Rx.data_some {mtu : Nat} {b : Byte} {r q : Rx} (h : r.data mtu b = some q) :
    r.cursor.toNat < mtu ∧ q = r.stored b := by
  by_cases hc : r.cursor.toNat < mtu
  · exact ⟨hc, Option.some.inj (h.symm.trans (Rx.data_of_lt hc))⟩
  · cases (Rx.data_of_ge (Nat.not_lt.mp hc)).symm.trans h

theorem Rx.last_some {mtu : Nat} {b : Byte} {r q : Rx} (h : r.last mtu b = some q) :
    r.cursor.toNat < mtu ∧ q = r.completed b := by
  by_cases hc : r.cursor.toNat < mtu
  · exact ⟨hc, Option.some.inj (h.symm.trans (Rx.last_of_lt hc))⟩
  · cases (Rx.last_of_ge (Nat.not_lt.mp hc)).symm.trans h

/-- Payload bytes before the last are stored one after the other (rule R188). -/
theorem Rx.run_payload {mtu : Nat} (hm : mtu ≤ 255) (bs : List Byte) {r : Rx} (hr : r.state = .readingPayload)
    (hlen : bs.length < r.remaining.toNat) (hb : r.cursor.toNat + r.remaining.toNat ≤ mtu) :
    ∃ q, r.run mtu bs = some (q, []) ∧ q.state = .readingPayload ∧
      q.remaining.toNat + bs.length = r.remaining.toNat ∧ q.cursor.toNat = r.cursor.toNat + bs.length ∧
      q.frame = r.frame ++ bs.map some := by
  induction bs generalizing r with
  | nil => exact ⟨r, rfl, hr, rfl, rfl, by simp⟩
  | cons b bs ih =>
    rw [List.length_cons] at hlen
    have hlt : r.cursor.toNat < mtu := by omega
    have hcur : (r.stored b).cursor.toNat = r.cursor.toNat + 1 := cursor_succ_toNat hlt hm
    have hrem : (r.stored b).remaining.toNat = r.remaining.toNat - 1 := remaining_pred_toNat (by omega)
    obtain ⟨q, hrun, hst, hq, hc, hf⟩ := ih (r := r.stored b) rfl (by omega) (by omega)
    have hbyte := Rx.byte_of_data (mtu := mtu) (b := b) hr (by omega) hlt
    refine ⟨q, Rx.run_trans (Rx.run_single hbyte) hrun, hst, by rw [List.length_cons]; omega,
      by rw [List.length_cons]; omega, ?_⟩
    rw [hf, Rx.frame_stored hm hlt (q := r.stored b) rfl rfl]
    simp

/-- The last payload byte completes the frame (rule R189). -/
theorem Rx.byte_last {mtu : Nat} (hm : mtu ≤ 255) (b : Byte) {r : Rx} (hr : r.state = .readingPayload)
    (hrem : r.remaining.toNat = 1) (hc : r.cursor.toNat < mtu) :
    ∃ q, r.byte mtu b = some (q, true) ∧ q.state = .idle ∧ q.cursor.toNat = r.cursor.toNat + 1 ∧
      q.frame = r.frame ++ [some b] := by
  exact ⟨r.completed b, Rx.byte_of_last hr (by omega) hc, rfl, cursor_succ_toNat hc hm, Rx.frame_stored hm hc rfl rfl⟩

/-- The bytes of a payload still to come: all but the last report nothing, the last one completes the frame. -/
theorem Rx.run_rest {mtu : Nat} (hm : mtu ≤ 255) (bs : List Byte) (b : Byte) {r : Rx} (hr : r.state = .readingPayload)
    (hlen : bs.length + 1 = r.remaining.toNat) (hb : r.cursor.toNat + r.remaining.toNat ≤ mtu) :
    ∃ q q', r.run mtu bs = some (q, []) ∧ q.byte mtu b = some (q', true) ∧ q'.state = .idle ∧
      q'.cursor.toNat = r.cursor.toNat + r.remaining.toNat ∧ q'.frame = r.frame ++ (bs ++ [b]).map some := by
  obtain ⟨q, hrun, hst, hrem, hc, hf⟩ := Rx.run_payload hm bs hr (by omega) hb
  obtain ⟨q', hbyte, hidle, hc', hf'⟩ := Rx.byte_last hm b hst (by omega) (by omega)
  exact ⟨q, q', hrun, hbyte, hidle, by omega, by rw [hf', hf]; simp⟩

/-- A length of 1 to `MTU` bytes is a byte the receiver takes as one. -/
theorem lengthByte_toNat {n : Nat} (h : n ≤ 255) : (lengthByte n).toNat = n := by
  simp [lengthByte]
  omega

theorem lengthByte_legal {mtu n : Nat} (hm : mtu ≤ 255) (h1 : 1 ≤ n) (hn : n ≤ mtu) :
    legalLength mtu (lengthByte n) = true := by
  rw [legalLength_iff, lengthByte_toNat (by omega)]
  exact ⟨h1, hn⟩

/-- A frame from `Idle`: header and payload but its last byte report nothing, the last byte completes the frame, which is
the payload. -/
theorem Rx.run_frame {mtu : Nat} (hm : mtu ≤ 255) (bs : List Byte) (b : Byte) {r : Rx} (hr : r.state = .idle)
    (hlen : bs.length + 1 ≤ mtu) :
    ∃ q q', r.run mtu ([syncByte1, syncByte2, lengthByte (bs.length + 1)] ++ bs) = some (q, []) ∧
      q.byte mtu b = some (q', true) ∧ q'.state = .idle ∧ q'.cursor.toNat = bs.length + 1 ∧
      q'.frame = (bs ++ [b]).map some := by
  have hl := lengthByte_toNat (n := bs.length + 1) (by omega)
  have hheader := Rx.run_header hr (lengthByte_legal hm (by omega) hlen)
  obtain ⟨q, q', hrun, hbyte, hidle, hc, hf⟩ := Rx.run_rest hm bs b
    (r := r.len (lengthByte (bs.length + 1))) rfl hl.symm (by simp [Rx.len, hl]; omega)
  refine ⟨q, q', Rx.run_trans hheader hrun, hbyte, hidle, by rw [hc]; simp [Rx.len, hl], ?_⟩
  rw [hf]
  simp [Rx.frame, Rx.len]

/-- A payload that is not empty, its last byte apart. -/
theorem exists_concat {p : List Byte} (h : 1 ≤ p.length) : ∃ bs b, p = bs ++ [b] := by
  rcases List.eq_nil_or_concat p with rfl | ⟨bs, b, hp⟩
  · simp at h
  · exact ⟨bs, b, by simpa using hp⟩

/-- The bytes of a frame around the last byte of its payload. -/
theorem wireFrame_concat (term bs : List Byte) (b : Byte) :
    wireFrame term (bs ++ [b]) =
      [syncByte1, syncByte2, lengthByte (bs.length + 1)] ++ bs ++ b :: term := by
  simp [wireFrame]

/-- The terminator follows the frame. -/
theorem wireFrame_append (term p : List Byte) : wireFrame term p = wireFrame [] p ++ term := by
  simp [wireFrame]

/-- A frame of 1 to `MTU` bytes without terminator is reported from `Idle`, and `Idle` is reached again. -/
theorem Rx.run_wireFrame {mtu : Nat} {p : List Byte} {r : Rx} (hm : mtu ≤ 255) (h1 : 1 ≤ p.length) (hp : p.length ≤ mtu)
    (hr : r.state = .idle) : ∃ q, r.run mtu (wireFrame [] p) = some (q, [p.map some]) ∧ q.state = .idle := by
  obtain ⟨bs, b, rfl⟩ := exists_concat h1
  obtain ⟨q, q', hrun, hbyte, hidle, -, hf⟩ := Rx.run_frame hm bs b hr (by simpa using hp)
  refine ⟨q', ?_, hidle⟩
  have hall := Rx.run_trans hrun (Rx.run_single hbyte)
  rw [wireFrame_concat]
  simpa [hf] using hall

/-- A frame put behind bytes that report nothing and end in `Idle` is reported, alone. -/
theorem Rx.run_wireFrame_after {mtu : Nat} {g p : List Byte} {r q : Rx} (hm : mtu ≤ 255) (h1 : 1 ≤ p.length)
    (hp : p.length ≤ mtu) (hg : r.run mtu g = some (q, [])) (hq : q.state = .idle) :
    ∃ q', r.run mtu (g ++ wireFrame [] p) = some (q', [p.map some]) ∧ q'.state = .idle := by
  obtain ⟨q', hrun, hidle⟩ := Rx.run_wireFrame hm h1 hp hq
  exact ⟨q', Rx.run_trans hg hrun, hidle⟩

/-! ## What a run's reports depend on -/

/-- Two receivers that the same bytes take the same way: in the same state, and while they read a payload at the same
count. -/
structure Rx.Alike (r r' : Rx) : Prop where
  state : r'.state = r.state
  counts : r.state = .readingPayload → r'.remaining = r.remaining ∧ r'.cursor = r.cursor

/-- One byte keeps two receivers alike. -/
theorem Rx.Alike.byte {mtu : Nat} {b : Byte} {r r' q : Rx} {done : Bool} (ha : r.Alike r')
    (h : r.byte mtu b = some (q, done)) : ∃ q', r'.byte mtu b = some (q', done) ∧ q.Alike q' := by
  obtain ⟨hst, hcounts⟩ := ha
  rcases Rx.byte_cases h with h | h | h | h | h | h | h | h
  · obtain ⟨hs, hb, rfl, rfl⟩ := h
    exact ⟨r'.sync1, by simp [Rx.byte, hst, hs, hb], rfl, nofun⟩
  · obtain ⟨hs, hb, rfl, rfl⟩ := h
    exact ⟨r'.skip, by simp [Rx.byte, hst, hs, hb], rfl, nofun⟩
  · obtain ⟨hs, hb, rfl, rfl⟩ := h
    exact ⟨r'.sync2, by simp [Rx.byte, hst, hs, hb], rfl, nofun⟩
  · obtain ⟨hs, hb, rfl, rfl⟩ := h
    exact ⟨r'.resync, by simp [Rx.byte, hst, hs, hb], rfl, nofun⟩
  · obtain ⟨hs, hb, rfl, rfl⟩ := h
    exact ⟨r'.len b, by simp [Rx.byte, hst, hs, hb], rfl, fun _ => ⟨rfl, rfl⟩⟩
  · obtain ⟨hs, hb, rfl, rfl⟩ := h
    exact ⟨r'.badlen, by simp [Rx.byte, hst, hs, hb], rfl, nofun⟩
  · obtain ⟨hs, hn, hd, rfl⟩ := h
    obtain ⟨hrem, hcur⟩ := hcounts hs
    obtain ⟨hlt, rfl⟩ := Rx.data_some hd
    exact ⟨r'.stored b, Rx.byte_of_data (hst.trans hs) (by rwa [hrem]) (by rwa [hcur]), rfl,
      fun _ => ⟨congrArg (· - 1) hrem, congrArg (· + 1) hcur⟩⟩
  · obtain ⟨hs, hn, hd, rfl⟩ := h
    obtain ⟨hrem, hcur⟩ := hcounts hs
    obtain ⟨hlt, rfl⟩ := Rx.last_some hd
    exact ⟨r'.completed b, Rx.byte_of_last (hst.trans hs) (by rwa [hrem]) (by rwa [hcur]), rfl, nofun⟩

/-- A run keeps two receivers alike, and they report equally many frames. -/
theorem Rx.Alike.run {mtu : Nat} (bs : List Byte) {r r' q : Rx} {fs : List (List (Option Byte))} (ha : r.Alike r')
    (h : r.run mtu bs = some (q, fs)) :
    ∃ q' fs', r'.run mtu bs = some (q', fs') ∧ q.Alike q' ∧ fs'.length = fs.length := by
  induction bs generalizing r r' fs with
  | nil =>
    cases h
    exact ⟨r', [], rfl, ha, rfl⟩
  | cons b bs ih =>
    obtain ⟨p, f, g, hp, hq, rfl⟩ := Rx.run_split (a := [b]) h
    cases hb : r.byte mtu b with
    | none => simp [Rx.run, hb] at hp
    | some x =>
      rw [Rx.run_single hb] at hp
      cases hp
      obtain ⟨p', hb', hap⟩ := ha.byte hb
      obtain ⟨q', g', hq', haq, hlen⟩ := ih hap hq
      refine ⟨q', _, Rx.run_trans (Rx.run_single hb') hq', haq, ?_⟩
      cases x.2 <;> simp [hlen]

/-- A safe terminator reports nothing and ends in `Idle` from every receiver in `Idle` (rule R11). -/
theorem Rx.run_term {mtu : Nat} {term : List Byte} {r : Rx} (hterm : termSafe mtu term = true) (hr : r.state = .idle) :
    ∃ q, r.run mtu term = some (q, []) ∧ q.state = .idle := by
  unfold termSafe at hterm
  split at hterm
  case h_2 => cases hterm
  case h_1 q fs hrun =>
    simp only [Bool.and_eq_true, decide_eq_true_eq, List.isEmpty_iff] at hterm
    obtain ⟨hidle, rfl⟩ := hterm
    obtain ⟨q', fs', hrun', halike, hlen⟩ := Rx.Alike.run (r := Rx.reset) (r' := r) term ⟨hr, nofun⟩ hrun
    obtain rfl : fs' = [] := List.length_eq_zero_iff.mp hlen
    exact ⟨q', hrun', halike.state.trans hidle⟩

/-! ## Bytes without the sync marker -/

/-- The run of `0xFF` at the end, one byte longer. -/
theorem trailingSyncs_concat (g : List Byte) (b : Byte) :
    trailingSyncs (g ++ [b]) = if b = syncByte1 then trailingSyncs g + 1 else 0 := by
  by_cases hb : b = syncByte1 <;> simp [trailingSyncs, hb]

/-- Where the run of `0xFF` at the end is not empty the last byte is one. -/
theorem exists_concat_sync {g : List Byte} (h : trailingSyncs g ≠ 0) : ∃ g', g = g' ++ [syncByte1] := by
  rcases List.eq_nil_or_concat g with rfl | ⟨g', b, rfl⟩
  · exact absurd rfl h
  · rw [List.concat_eq_append, trailingSyncs_concat] at h
    by_cases hb : b = syncByte1
    · exact ⟨g', by rw [hb, List.concat_eq_append]⟩
    · rw [if_neg hb] at h
      exact absurd rfl h

/-- Bytes in which the marker's two bytes never stand side by side, from `Idle`: nothing is reported, and the parity of the
run of `0xFF` at the end decides between `Idle` and `SawFirstSync`. -/
theorem Rx.run_markerless {mtu : Nat} (g : List Byte) {r : Rx} (hg : ¬ [syncByte1, syncByte2] <:+: g)
    (hr : r.state = .idle) :
    r.run mtu g = some ({ r with state := if trailingSyncs g % 2 = 0 then .idle else .sawFirstSync }, []) := by
  induction g using List.reverseRecOn with
  | nil => simp [Rx.run, trailingSyncs, ← hr]
  | append_singleton g b ih =>
    have hrun := ih fun hin => hg (hin.trans (List.infix_append' [] g [b]))
    rw [trailingSyncs_concat]
    by_cases heven : trailingSyncs g % 2 = 0
    · rw [if_pos heven] at hrun
      by_cases hb : b = syncByte1
      · rw [if_pos hb, if_neg (by omega)]
        exact Rx.run_trans hrun (Rx.run_single (done := false) (by simp [Rx.byte, hb, Rx.sync1]))
      · rw [if_neg hb, if_pos rfl]
        exact Rx.run_trans hrun (Rx.run_single (done := false) (by simp [Rx.byte, hb, Rx.skip]))
    · rw [if_neg heven] at hrun
      have hb2 : b ≠ syncByte2 := by
        rintro rfl
        obtain ⟨g', rfl⟩ := exists_concat_sync (g := g) (by intro h; simp [h] at heven)
        exact hg ⟨g', [], by simp⟩
      have hstep := Rx.run_trans hrun (Rx.run_single (mtu := mtu) (b := b) (done := false)
        (q := { r with state := .idle }) (by simp [Rx.byte, hb2, Rx.resync]))
      have hcount : (if b = syncByte1 then trailingSyncs g + 1 else 0) % 2 = 0 := by
        split <;> omega
      rwa [if_pos hcount]

/-- Bytes with no `0xFF` among them end in no run of it. -/
theorem trailingSyncs_of_not_mem {g : List Byte} (h : syncByte1 ∉ g) : trailingSyncs g = 0 := by
  by_contra hne
  obtain ⟨g', rfl⟩ := exists_concat_sync hne
  simp at h

/-- Bytes with no `0xFF` among them leave a receiver in `Idle` as it was. -/
theorem Rx.run_of_not_mem {mtu : Nat} {g : List Byte} {r : Rx} (h : syncByte1 ∉ g) (hr : r.state = .idle) :
    r.run mtu g = some (r, []) := by
  rw [Rx.run_markerless g (fun hin => h (hin.subset (by simp))) hr, trailingSyncs_of_not_mem h]
  simp [← hr]

/-! ## The obligations -/

/-- Settles O29: the frame by `Rx.run_wireFrame`, the terminator by `Rx.run_term`. -/
theorem roundTripReportsThePayload : Obligations.RoundTripReportsThePayload := by
  intro cfg p r hcfg hmode h1 hp hr
  obtain ⟨-, hm, hterm, -⟩ := Config.wf_conditions hcfg
  obtain ⟨q, hrun, hq⟩ := Rx.run_wireFrame (hm hmode) h1 hp hr
  obtain ⟨q', hrun', hq'⟩ := Rx.run_term hterm hq
  exact ⟨q', by rw [wireFrame_append]; exact Rx.run_trans hrun hrun', hq'⟩

/-- Settles O30 by `Rx.run_wireFrame_after`. -/
theorem harmlessGarbageCostsNothing : Obligations.HarmlessGarbageCostsNothing :=
  fun _ _ _ _ _ hm h1 hp hg hq => Rx.run_wireFrame_after hm h1 hp hg hq

/-- Settles O31 by `Rx.run_markerless`. -/
theorem garbageWithoutTheMarkerIsHarmless : Obligations.GarbageWithoutTheMarkerIsHarmless := by
  intro mtu g r hg hr
  have hrun := Rx.run_markerless (mtu := mtu) g hg hr
  refine ⟨hrun, fun p hm h1 hp heven => ?_⟩
  exact Rx.run_wireFrame_after hm h1 hp hrun (by simp [heven])

/-- Settles O32: the two `0xFF` are no marker, and behind them no byte is `0xFF`. -/
theorem strayFirstSyncByteLosesTheFrame : Obligations.StrayFirstSyncByteLosesTheFrame := by
  intro mtu p r hlen hp hr
  have hl : syncByte1 ≠ lengthByte p.length := by
    intro h
    have := congrArg BitVec.toNat h
    rw [lengthByte_toNat (by omega)] at this
    simp [syncByte1] at this
    omega
  have hsyncs := Rx.run_of_not_mem (mtu := mtu) (g := [syncByte2, lengthByte p.length] ++ p) (r := r)
    (by simpa [hl] using ⟨by decide, hp⟩) hr
  have hstray : r.run mtu [syncByte1, syncByte1] = some (r, []) := by
    rw [Rx.run_markerless _ (by decide) hr]
    simp [trailingSyncs, ← hr]
  have hall := Rx.run_trans hstray hsyncs
  simpa [wireFrame, syncByte1] using hall

/-- Settles O33: the malformed header by `Rx.run_badHeader`. -/
theorem badLengthIsNoise : Obligations.BadLengthIsNoise := by
  intro mtu l p r hm hl h1 hp hr
  have hbad : legalLength mtu l = false := by
    rw [Bool.eq_false_iff, Ne, legalLength_iff]
    omega
  have hrun := Rx.run_badHeader hr hbad
  exact ⟨hrun, Rx.run_wireFrame_after hm h1 hp hrun hr⟩

/-- Settles O34: the first part lies within the frame but its last byte, which reports nothing. -/
theorem splitFrameIsReportedOnce : Obligations.SplitFrameIsReportedOnce := by
  intro mtu p a b r hm h1 hp hr hsplit hb
  obtain ⟨q', hall, hq'⟩ := Rx.run_wireFrame hm h1 hp hr
  obtain ⟨bs, c, rfl⟩ := exists_concat h1
  obtain ⟨b', d, rfl⟩ := exists_concat (List.length_pos_iff.mpr hb)
  rw [hsplit] at hall
  obtain ⟨q, f, g, ha, hrest, hfg⟩ := Rx.run_split hall
  obtain ⟨w, -, hw, -⟩ := Rx.run_frame hm bs c hr (by simpa using hp)
  have hwhole : [syncByte1, syncByte2, lengthByte (bs.length + 1)] ++ bs = a ++ b' := by
    rw [wireFrame_concat, ← List.append_assoc] at hsplit
    exact (List.append_inj' hsplit rfl).1
  rw [hwhole] at hw
  obtain ⟨q₁, f₁, g₁, ha₁, -, hnil⟩ := Rx.run_split hw
  obtain ⟨rfl, rfl⟩ : q₁ = q ∧ f₁ = f := by simpa [ha₁] using ha
  obtain rfl : f₁ = [] := (List.append_eq_nil_iff.mp hnil.symm).1
  exact ⟨q₁, q', ha, by rw [hfg]; exact hrest, hq'⟩

end Sys2Proof.Machine
end

section
/-! PROOFS. The host commands and the receiver's length and payload rows, one by one: sends, polls in both modes, `WAIT`,
`NOP`, reset. -/

namespace Sys2Proof.Machine

open Sys2Proof Sys2Proof.Safety

/-! ## The length check and the payload recoverer -/

/-- Settles O9: the keys by `decode_receiver_key`, the rows by their definitions. -/
theorem lengthRowsCheckTheLength : Obligations.LengthRowsCheckTheLength := by
  refine ⟨fun mtu remaining l => ?_, fun s l => ⟨rfl, rfl⟩⟩
  refine (decode_receiver_key mtu remaining .sawSecondSync l).trans (congrArg Except.ok ?_)
  simp only [receiverRow, legalLength_iff]

/-- Settles O10: the keys by `decode_receiver_key`, the stores by the rows' equations inside the buffer. -/
theorem payloadRowsStoreTheByte : Obligations.PayloadRowsStoreTheByte := by
  refine ⟨fun mtu remaining b _ => decode_receiver_key mtu remaining .readingPayload b, fun s b hc => ?_⟩
  refine ⟨s.rx.buf.write s.rx.cursor.toNat b, fun a => Mem.read_write _ _ _ _, ?_, ?_⟩
  · show storeRx (s.rx.data s.cfg.mtu b) _ = _
    rw [Rx.data_of_lt hc]
    rfl
  · show storeRx (s.rx.last s.cfg.mtu b) _ = _
    rw [Rx.last_of_lt hc]
    rfl

/-- Settles O11: neither row has a cell to store the byte in. -/
theorem payloadRowsStopOutsideTheBuffer : Obligations.PayloadRowsStopOutsideTheBuffer := by
  intro s b hc
  constructor
  · show storeRx (s.rx.data s.cfg.mtu b) _ = _
    rw [Rx.data_of_ge hc, storeRx_none]
  · show storeRx (s.rx.last s.cfg.mtu b) _ = _
    rw [Rx.last_of_ge hc, storeRx_none]

/-- Settles O14: both rows are `drainByte`. -/
theorem drainingNothingIsRefused : Obligations.DrainingNothingIsRefused :=
  fun _ hq => ⟨drainByte_nil (f := fun t => t.enterSu .drainInput) hq,
    drainByte_nil (f := fun t => t.enterSu .drainInput) hq⟩

/-! ## Sends -/

/-- An admissible send puts its image on the wire and returns the length (rules R161, R162). -/
theorem sendBytes_of_le {s : State} (mode : Mode) (hl : s.cmd.lengthOf s.cfg ≤ s.cfg.mtu)
    (hp : s.cmd.lengthOf s.cfg ≤ s.cmd.payload.length) :
    sendBytes s mode = .next
      ((s.emit (sendImage mode s.cfg.term (s.cmd.payload.take (s.cmd.lengthOf s.cfg)))).finish
        (.bytesSent (s.cmd.lengthOf s.cfg))) := by
  simp [sendBytes, Nat.not_lt.mpr hl, Nat.not_lt.mpr hp]

/-- A send longer than `MTU` takes the fault (rule R241). -/
theorem sendBytes_of_gt {s : State} (mode : Mode) (hl : s.cfg.mtu < s.cmd.lengthOf s.cfg) :
    sendBytes s mode = .next s.raiseFatal := by
  simp [sendBytes, hl]

/-- A send whose payload is shorter than its length is refused by name (U15). -/
theorem sendBytes_of_short {s : State} (mode : Mode) (hl : s.cmd.lengthOf s.cfg ≤ s.cfg.mtu)
    (hp : s.cmd.payload.length < s.cmd.lengthOf s.cfg) : sendBytes s mode = .refused .payloadShort := by
  simp [sendBytes, Nat.not_lt.mpr hl, hp]

/-- The frame of the first `n` bytes of a payload, written out (rule R101). -/
theorem wireFrame_take (term payload : List Byte) {n : Nat} (h : n ≤ payload.length) :
    wireFrame term (payload.take n) = [0xFF#8, 0x55#8, BitVec.ofNat 8 n] ++ payload.take n ++ term := by
  simp [wireFrame, syncByte1, syncByte2, lengthByte, h]

/-- Settles O24 by `sendBytes_of_le`, the image written out. -/
theorem sendPacketEmitsAFrame : Obligations.SendPacketEmitsAFrame := by
  intro s hr hl hp
  show whenReady s (sendBytes s .packet) = _
  rw [whenReady_ready hr, sendBytes_of_le .packet hl hp, sendImage, wireFrame_take _ _ hp]
  simp only [State.emit, State.finish, List.append_assoc]

/-- Settles O25 by `sendBytes_of_le`: in stream mode the image is the payload. -/
theorem sendStreamEmitsThePayload : Obligations.SendStreamEmitsThePayload := by
  intro s hr hl hp
  exact (whenReady_ready hr).trans (sendBytes_of_le .stream hl hp)

/-- Settles O26 by `sendBytes_of_gt`. -/
theorem oversizeSendTakesTheFault : Obligations.OversizeSendTakesTheFault := by
  intro s i hi hr hl
  simp only [List.mem_cons, List.not_mem_nil, or_false] at hi
  rcases hi with rfl | rfl
  · exact (whenReady_ready hr).trans (sendBytes_of_gt .packet hl)
  · exact (whenReady_ready hr).trans (sendBytes_of_gt .stream hl)

/-- Settles O27 by `sendBytes_of_short`. -/
theorem shortPayloadIsRefused : Obligations.ShortPayloadIsRefused :=
  fun _ hr hl hp => ⟨(whenReady_ready hr).trans (sendBytes_of_short .packet hl hp),
    (whenReady_ready hr).trans (sendBytes_of_short .stream hl hp)⟩

/-- Settles O28: the send by O24, the length byte 0 is a bad header, the terminator is safe. -/
theorem zeroLengthSendIsNeverReceived : Obligations.ZeroLengthSendIsNeverReceived := by
  intro s r hr hcfg hlen hidle
  obtain ⟨-, -, hterm, -⟩ := Config.wf_conditions hcfg
  have hsend := sendPacketEmitsAFrame s hr (by omega) (by omega)
  obtain ⟨q, hrun, hq⟩ := Rx.run_term hterm hidle
  have hbad := Rx.run_badHeader (mtu := s.cfg.mtu) (l := 0#8) hidle (by simp [legalLength])
  refine ⟨_, q, hsend, by simp [hlen], ((s.ready_eq_true).mp hr).2, by simp [hlen], Rx.run_trans hbad hrun, hq⟩

/-! ## Polls -/

/-- Settles O35: `execPollP` is the loop of rule R191, and the loop follows the run. -/
theorem pollPacketStopsAtTheFrame : Obligations.PollPacketStopsAtTheFrame := by
  intro s hr hc
  refine ⟨fun r hrun => ?_, fun a b q r r' hq hrun hb => ?_⟩
  · exact execPollP_of_poll hr hc (Rx.poll_of_run_nil hrun)
  · exact execPollP_of_poll hr hc (by rw [hq]; exact Rx.poll_of_run_done hrun hb)

/-- Settles O37: with nothing waiting the run is empty. -/
theorem pollWithNothingWaitingReturnsZero : Obligations.PollWithNothingWaitingReturnsZero := by
  intro s hr hc hq
  have hpoll := (pollPacketStopsAtTheFrame s hr hc).1 s.rx (by rw [hq]; rfl)
  rwa [← hq] at hpoll

/-- Settles O38 by `execPollP_of_short`. -/
theorem shortCapacityIsRefused : Obligations.ShortCapacityIsRefused :=
  fun _ hr hc => execPollP_of_short hr hc

/-- Where a frame is in progress the loop of rule R191 stops at its last byte, or takes all there is if that has not
come. -/
theorem Rx.poll_in_progress {mtu : Nat} (hm : mtu ≤ 255) (bs : List Byte) {r : Rx} (hi : RxInv mtu r)
    (hr : r.state = .readingPayload) :
    (r.remaining.toNat ≤ bs.length → ∃ q, r.poll mtu bs = some (q, true, bs.drop r.remaining.toNat) ∧
      q.cursor.toNat = r.cursor.toNat + r.remaining.toNat) ∧
    (bs.length < r.remaining.toNat → ∃ q, r.poll mtu bs = some (q, false, [])) := by
  constructor
  · intro hlen
    obtain ⟨as, b, hsplit⟩ := exists_concat (p := bs.take r.remaining.toNat)
      (by rw [List.length_take]; exact Nat.le_min.mpr ⟨hi.counting.mp hr, (hi.counting.mp hr).trans hlen⟩)
    have has : as.length + 1 = r.remaining.toNat := by
      rw [← List.length_concat (as := as) (a := b), List.concat_eq_append, ← hsplit, List.length_take]
      omega
    obtain ⟨q, q', hrun, hbyte, -, hc, -⟩ := Rx.run_rest hm as b hr has hi.bound
    refine ⟨q', ?_, hc⟩
    have hbs : bs = as ++ b :: bs.drop r.remaining.toNat := by
      rw [← List.singleton_append, ← List.append_assoc, ← hsplit, List.take_append_drop]
    calc r.poll mtu bs = r.poll mtu (as ++ b :: bs.drop r.remaining.toNat) := congrArg (r.poll mtu ·) hbs
      _ = _ := Rx.poll_of_run_done hrun hbyte
  · intro hlen
    obtain ⟨q, hrun, -⟩ := Rx.run_payload hm bs hr hlen hi.bound
    exact ⟨q, Rx.poll_of_run_nil hrun⟩

/-- The cells of a reported frame read alike at every reading (rule R87). -/
theorem State.bufData_of_read {s : State} {i : Nat} {v : Byte} (hi : i < s.frameLen) (hv : s.rx.buf.read i = some v)
    (reading : Nat) : s.bufData reading i = v := by
  simp [State.bufData, hi, hv]

/-- Settles O36: the loop answers in the invariant (`Rx.poll_answers`), whose clauses are what is said of the frame;
`Rx.poll_in_progress` says where it stops. -/
theorem pollPacketReportsWholeFrames : Obligations.PollPacketReportsWholeFrames := by
  intro s hr hi hm hc
  have hmtu := hi.mtu_le hm
  have hfault := (s.ready_eq_true.mp hr).2
  obtain ⟨q, done, rest, hp, hq, hdone, hrest, -⟩ := Rx.poll_answers hmtu s.rxq hi.receiver
  have hprogress := Rx.poll_in_progress hmtu s.rxq hi.receiver
  have hexec := execPollP_of_poll hr hc hp
  cases done with
  | false =>
    refine ⟨_, 0, hexec, rfl, rfl, Nat.zero_le _, hfault, fun h => absurd rfl h, fun hread => ⟨fun hlen => ?_, fun _ => rfl⟩⟩
    obtain ⟨q', hp', -⟩ := (hprogress hread).1 hlen
    simp [hp'] at hp
  | true =>
    have hidle := (hdone rfl).1
    have hrem : q.remaining.toNat = 0 := by
      have hnone := mt hq.counting.mpr (by simp [hidle])
      omega
    have hlength := hq.length
    have hbound := hq.bound
    refine ⟨_, q.cursor.toNat, hexec, rfl, rfl, by omega, hfault, fun _ => ⟨hidle, BitVec.eq_of_toNat_eq hrem, rfl, ?_, ?_⟩,
      fun hread => ⟨fun hlen => ?_, fun hlen => ?_⟩⟩
    · show q.accepted.toNat = q.cursor.toNat
      omega
    · intro i hlt
      obtain ⟨v, hv⟩ := Option.isSome_iff_exists.mp (hq.written i hlt)
      exact ⟨v, hv, State.bufData_of_read hlt hv⟩
    · obtain ⟨q', hp', hcur⟩ := (hprogress hread).1 hlen
      obtain ⟨rfl, rfl⟩ : q' = q ∧ s.rxq.drop s.rx.remaining.toNat = rest := by simpa [hp'] using hp
      exact ⟨hcur, rfl⟩
    · obtain ⟨q', hp'⟩ := (hprogress hread).2 hlen
      simp [hp'] at hp

/-- Settles O39: the bytes taken stand at their indices by `Mem.read_writeAll`. -/
theorem pollStreamCopiesUpToCapacity : Obligations.PollStreamCopiesUpToCapacity := by
  intro s hr n
  have htake : s.rxq.take (s.cmd.capacityOf s.cfg) = s.rxq.take n := by
    rw [List.take_eq_take_iff]
    omega
  have hdrop : s.rxq.drop (s.cmd.capacityOf s.cfg) = s.rxq.drop n := by
    rw [← List.append_right_inj (s.rxq.take n), List.take_append_drop, ← htake, List.take_append_drop]
  have hlen : (s.rxq.take n).length = n := by
    rw [List.length_take]
    omega
  refine ⟨s.hostBuf.writeAll 0 (s.rxq.take n), fun a => ?_, ?_⟩
  · rw [Mem.read_writeAll, hlen]
    simp only [Nat.zero_le, true_and, Nat.zero_add, Nat.sub_zero]
    split
    · rename_i ha
      exact List.getElem?_take_of_lt ha
    · rfl
  · refine (whenReady_ready hr).trans ?_
    simp only [htake, hdrop, hlen]
    rfl

/-! ## The rest of the operation surface -/

/-- `has_data` is whether a byte is waiting (rule R38). -/
theorem State.rxAvail_eq_decide (s : State) : s.rxAvail = decide (s.rxq ≠ []) := by
  cases hq : s.rxq <;> simp [State.rxAvail, hq]

/-- Settles O40: `has_data` is whether a byte is waiting. -/
theorem waitReportsAvailability : Obligations.WaitReportsAvailability := by
  intro s hr
  refine (whenReady_ready hr).trans ?_
  rw [State.rxAvail_eq_decide]
  rfl

/-- Settles O41: `NOP` is its definition. -/
theorem nopDoesNothing : Obligations.NopDoesNothing :=
  fun _ => rfl

/-- Settles O42: `CREATE` is its definition. -/
theorem createResetsTheBlock : Obligations.CreateResetsTheBlock :=
  fun _ => rfl

/-- Settles O43: `CREATE` is `State.applyReset`, and what it leaves on the wire is `State.cutOff`. -/
theorem resetCutsOffASend : Obligations.ResetCutsOffASend := by
  intro s n sending
  refine ⟨s.applyReset, rfl, rfl, rfl, rfl, fun hs hm => ?_, fun hs hm => ?_, fun hs => ?_⟩
  · have hsend := s.sending_eq_true.mpr hs
    obtain ⟨-, -, -, hp⟩ := hs
    rw [State.applyReset_wire, State.cutOff_of_sending hsend, hm, sendImage, wireFrame_take _ _ hp]
  · rw [State.applyReset_wire, State.cutOff_of_sending (s.sending_eq_true.mpr hs), hm, sendImage]
  · rw [State.applyReset_wire, State.cutOff_of_not_sending (by simpa using mt s.sending_eq_true.mp hs), List.append_nil]

/-- Settles O1: the fields of `State.resetWith`. -/
theorem resetLeavesTheSpecsValues : Obligations.ResetLeavesTheSpecsValues :=
  ⟨fun _ _ _ => ⟨rfl, rfl, rfl, rfl, rfl, rfl, fun _ => rfl, rfl, rfl, rfl, rfl, rfl, rfl, rfl⟩, rfl⟩

end Sys2Proof.Machine
end

section
/-! PROOFS. The shape of a step, the two readings of a packet poll (rule R84), and send and receive through the machine. -/

namespace Sys2Proof.Machine

open Sys2Proof Sys2Proof.Safety

/-! ## The ports and the key -/

/-- Settles O3: `State.arrive` in its two cases, the release of reset and any other sample. -/
theorem sampleTakesThePorts : Obligations.SampleTakesThePorts := by
  refine ⟨fun s i rest hin => ?_, fun s hin => ?_⟩
  · simp only [State.sample, hin, State.arrive]
    cases hs : s.rst <;> cases hi : i.rst <;> rfl
  · simp only [State.sample, hin, State.arrive, State.quietInput, List.append_nil, Option.toList_none]
    cases hs : s.rst <;> rfl

/-- A step is the row its key decodes to, in the state the fetch leaves. -/
theorem step_of_decode {s : State} {i : Instr} (h : decode s.cfg.mtu s.rx.remaining s.sample.fetch.2 = .ok i) :
    step s = exec i s.sample.fetch.1 := by
  have hregs : s.sample.fetch.1.cfg = s.cfg ∧ s.sample.fetch.1.rx = s.rx := by
    unfold State.fetch
    split
    · simp
    · split
      · simp
      · split
        · split <;> simp
        · simp
  obtain ⟨hcfg, hrx⟩ := hregs
  simp only [step, hcfg, hrx, h]

theorem bitOf_eq_ofBool (b : Bool) : bitOf b = BitVec.ofBool b := by
  cases b <;> rfl

/-- The key with no command presented: the startup key. -/
theorem State.fetch_startup {s : State} (hr : s.rst = false) (hc : s.cmds = []) :
    s.fetch = (s, .s (keyS s.suState s.expired s.rxAvail)) := by
  simp [State.fetch, hr, hc]

/-- The key of a packet poll taken per byte: the receiver key of the byte it pops. -/
theorem State.fetch_byte {s : State} {b : Byte} {q : List Byte} (hr : s.rst = false) (hc : s.cmds ≠ [])
    (hp : s.pollingByBytes = true) (hq : s.rxq = b :: q) :
    s.fetch = (s.releaseFrame.setRxq q, .k (keyK s.rx.state b)) := by
  obtain ⟨c, cs, hcs⟩ := List.exists_cons_of_ne_nil hc
  simp [State.fetch, hr, hcs, hp, hq]

/-- The key of any other command: the host command key. -/
theorem State.fetch_command {s : State} {c : Command} {cs : List Command} (hr : s.rst = false) (hc : s.cmds = c :: cs)
    (hp : s.pollingByBytes = false ∨ s.rxq = []) : s.fetch = (s, .h (keyH s.cfg.mode c.op)) := by
  cases hpoll : s.pollingByBytes with
  | false => simp [State.fetch, hr, hc, hpoll]
  | true =>
    have hq : s.rxq = [] := by simpa [hpoll] using hp
    simp [State.fetch, hr, hc, hpoll, hq]

/-- Settles O2: the step by `step_of_decode`, the key by the cases of the fetch. -/
theorem stepRunsTheDecodedInstruction : Obligations.StepRunsTheDecodedInstruction := by
  refine ⟨fun s i h => step_of_decode h, fun s hr => ?_, fun s hr hc => ?_, fun s c cs hr hc => ?_⟩
  · simp [State.fetch, hr]
  · intro e a
    have hexp : s.sample.expired = e := by
      rw [Bool.eq_iff_iff, State.expired_eq_true, decide_eq_true_iff, State.sample_suState, State.sample_cfg]
    rw [State.fetch_startup hr hc, hexp, State.rxAvail_eq_decide, State.sample_suState]
    simp only [keyS, bitOf_eq_ofBool, a]
  · intro byBytes
    have hiff : s.sample.pollingByBytes = true ↔ byBytes := by
      rw [State.pollingByBytes_eq_true, State.cmd_of_cons hc]
      simp only [State.sample_pollGrain, State.sample_cfg, State.sample_suState, State.sample_fault, byBytes,
        State.ready_eq_true, and_assoc]
    refine ⟨fun b q hby hq => ?_, fun hnot => ?_⟩
    · rw [State.fetch_byte hr (by simp [hc]) (hiff.mpr hby) hq, State.sample_rx]
      rfl
    · rw [State.fetch_command hr hc (hnot.imp_left fun h => by simpa using mt hiff.mp h), State.sample_cfg]
      rfl

/-! ## The two readings of a packet poll -/

/-- A quiet environment shows what it showed before. -/
theorem State.sample_quiet {s : State} (hin : s.inputs = []) (hr : s.rst = false) : s.sample = s := by
  rw [sampleTakesThePorts.2 s hin]
  cases s
  simp_all

/-- A run of one step is the step. -/
theorem run_one (s : State) : Host.Core.run core 1 s = step s := by
  simp only [Host.Core.run]
  cases h : core.step s <;> exact h.symm

/-- A run whose first step answers goes on from there. -/
theorem run_step {s t : State} (h : step s = .next t) (n : Nat) :
    Host.Core.run core (n + 1) s = Host.Core.run core n t := by
  rw [Nat.add_comm, run_add ((run_one s).trans h)]

/-- Between two bytes of a poll: a packet poll at the port, taken byte by byte in a quiet environment. -/
structure PollInProgress (s : State) : Prop where
  inputs : s.inputs = []
  rst : s.rst = false
  cmds : s.cmds ≠ []
  polling : s.pollingByBytes = true

/-- With nothing waiting the step is the poll itself. -/
theorem PollInProgress.step_nil {s : State} (h : PollInProgress s) (hq : s.rxq = []) : step s = execPollP s := by
  obtain ⟨c, cs, hcs⟩ := List.exists_cons_of_ne_nil h.cmds
  have hs := State.sample_quiet h.inputs h.rst
  obtain ⟨-, hm, hpoll, -⟩ := s.pollingByBytes_eq_true.mp h.polling
  have hop : c.op = .poll := by rwa [State.cmd_of_cons hcs] at hpoll
  rw [step_command (by rw [hs]; exact h.rst) (by rw [hs]; exact hcs) (.inr (by rw [hs]; exact hq)), hs, hm, hop]
  rfl

/-- With a byte waiting the step is `RxByte` for it. -/
theorem PollInProgress.step_some {s : State} (h : PollInProgress s) {b : Byte} {q : List Byte} {r : Rx} {done : Bool}
    (hq : s.rxq = b :: q) (hb : s.rx.byte s.cfg.mtu b = some (r, done)) :
    step s = .next
      (if done then ((s.releaseFrame.setRxq q).setRx r).reportFrame else (s.releaseFrame.setRxq q).setRx r) := by
  have hstep := step_of_byte (s := s) (b := b) (q := q) (r := r) (done := done)
  rw [State.sample_quiet h.inputs h.rst] at hstep
  exact hstep h.rst h.cmds h.polling hq hb

/-- Where `RxByte` has no transition the step stops as the poll does. -/
theorem PollInProgress.step_none {s : State} (h : PollInProgress s) {b : Byte} {q : List Byte} (hq : s.rxq = b :: q)
    (hb : s.rx.byte s.cfg.mtu b = none) : step s = .fault .rxBufIndex := by
  have hstep := step_byte (s := s) (b := b) (q := q)
  rw [State.sample_quiet h.inputs h.rst] at hstep
  rw [hstep h.rst h.cmds h.polling hq]
  have hrow := exec_receiver (s.releaseFrame.setRxq q) b
  rw [State.setRxq_rx, State.releaseFrame_rx, State.setRxq_cfg, State.releaseFrame_cfg, hb] at hrow
  exact hrow

/-- A packet poll of a receiver that leaves its buffer stops there. -/
theorem execPollP_of_none {s : State} (hr : s.ready = true) (hc : s.cfg.mtu ≤ s.cmd.capacity)
    (hp : s.rx.poll s.cfg.mtu s.rxq = none) : execPollP s = .fault .rxBufIndex := by
  rw [execPollP, whenReady_ready hr, if_neg (by omega), hp]

/-- A byte that completes no frame leaves the rest of the loop to do: a poll from where it left the receiver answers
what the poll from here answers. -/
theorem execPollP_after_byte {s : State} {b : Byte} {q : List Byte} {r : Rx} (hr : s.ready = true)
    (hc : s.cfg.mtu ≤ s.cmd.capacity) (hq : s.rxq = b :: q) (hb : s.rx.byte s.cfg.mtu b = some (r, false)) :
    execPollP ((s.releaseFrame.setRxq q).setRx r) = execPollP s := by
  have hpoll : s.rx.poll s.cfg.mtu s.rxq = r.poll s.cfg.mtu q := by rw [hq, Rx.poll, hb]
  cases hloop : r.poll s.cfg.mtu q with
  | none =>
    rw [execPollP_of_none hr hc (hpoll.trans hloop)]
    exact execPollP_of_none hr hc hloop
  | some x =>
    rw [execPollP_of_poll hr hc (hpoll.trans hloop)]
    exact execPollP_of_poll hr hc hloop

/-- A packet poll taken byte by byte answers what the poll taken whole answers, by induction on the bytes waiting: a byte
that completes no frame leaves a poll that is still in progress. -/
theorem PollInProgress.run_eq (q : List Byte) {s : State} (h : PollInProgress s) (hq : s.rxq = q) :
    ∃ k, 1 ≤ k ∧ k ≤ q.length + 1 ∧ Host.Core.run core k s = execPollP s := by
  induction q generalizing s with
  | nil => exact ⟨1, Nat.le_refl 1, Nat.le_refl 1, (run_one s).trans (h.step_nil hq)⟩
  | cons b q ih =>
    obtain ⟨-, -, -, hop, hfault, hcap⟩ := s.pollingByBytes_eq_true.mp h.polling
    have hready : s.ready = true := s.ready_eq_true.mpr ⟨hop, hfault⟩
    cases hb : s.rx.byte s.cfg.mtu b with
    | none =>
      refine ⟨1, Nat.le_refl 1, by simp, ?_⟩
      rw [run_one, h.step_none hq hb, execPollP_of_none hready hcap (by rw [hq, Rx.poll, hb])]
    | some x =>
      obtain ⟨r, done⟩ := x
      have hstep := h.step_some hq hb
      cases done with
      | true =>
        have hpoll : s.rx.poll s.cfg.mtu s.rxq = some (r, true, q) := by rw [hq, Rx.poll, hb]
        refine ⟨1, Nat.le_refl 1, by simp, ?_⟩
        rw [run_one, hstep, execPollP_of_poll hready hcap hpoll]
        rfl
      | false =>
        have hnext : PollInProgress ((s.releaseFrame.setRxq q).setRx r) := ⟨h.inputs, h.rst, h.cmds, h.polling⟩
        obtain ⟨k, -, hk, hrun⟩ := ih hnext rfl
        exact ⟨k + 1, by omega, by simpa using hk,
          (run_step hstep k).trans (hrun.trans (execPollP_after_byte hready hcap hq hb))⟩

/-- Settles O57: with enough capacity by `PollInProgress.run_eq`, without it the one step is the refusal. -/
theorem pollByBytesIsThePollTakenWhole : Obligations.PollByBytesIsThePollTakenWhole := by
  intro s c cs hin hr hc hop hm hgrain hready
  have hcmd := State.cmd_of_cons hc
  by_cases hcap : s.cfg.mtu ≤ s.cmd.capacity
  · obtain ⟨hsu, hfault⟩ := s.ready_eq_true.mp hready
    have hpolling := s.pollingByBytes_eq_true.mpr ⟨hgrain, hm, by rw [hcmd, hop], hsu, hfault, hcap⟩
    exact PollInProgress.run_eq s.rxq ⟨hin, hr, by simp [hc], hpolling⟩ rfl
  · refine ⟨1, Nat.le_refl 1, Nat.le_add_left 1 _, ?_⟩
    have hs := State.sample_quiet hin hr
    have hnot : s.pollingByBytes = false := by
      rw [Bool.eq_false_iff, Ne, State.pollingByBytes_eq_true]
      exact fun ⟨_, _, _, _, _, h⟩ => hcap h
    rw [run_one, step_command (by rw [hs]; exact hr) (by rw [hs]; exact hc) (.inl (by rw [hs]; exact hnot)), hs, hm, hop]
    rfl

/-! ## Send and receive -/

/-- A length of at most `MTU` fits into the operand's `LENW` bits (rule R8). -/
theorem Command.lengthOf_of_le {cfg : Config} {c : Command} (hcfg : cfg.wf = true) (h : c.length ≤ cfg.mtu) :
    c.lengthOf cfg = c.length := by
  obtain ⟨-, -, -, -, hlenw⟩ := Config.wf_conditions hcfg
  exact Nat.mod_eq_of_lt (by omega)

/-- A frame that equals a payload holds the payload's bytes at their indices. -/
theorem Rx.read_of_frame {r : Rx} {p : List Byte} (h : r.frame = p.map some) {i : Nat} (hi : i < r.cursor.toNat) :
    r.buf.read i = p[i]? := by
  have hget := congrArg (·[i]?) h
  simp only [Rx.frame, List.getElem?_map, List.getElem?_range hi, Option.map_some] at hget
  cases hp : p[i]? with
  | none => simp [hp] at hget
  | some v => simpa [hp] using hget

/-- Settles O58: the send emits the frame (`sendBytes_of_le`), the receiver recovers it (`Rx.run_frame`), the poll stops at
its last byte (`Rx.poll_of_run_done`), and the host reads the cells. -/
theorem sentPayloadIsReadBack : Obligations.SentPayloadIsReadBack := by
  intro s c p cs hi hr hm hidle hq htxh hcmds hcap hlen h1 hmtu
  have hcmd := State.cmd_of_cons hcmds
  have hlenOf : s.cmd.lengthOf s.cfg = c.payload.length := by
    rw [hcmd, Command.lengthOf_of_le hi.config (by omega), hlen]
  have hsend := (whenReady_ready hr).trans
    (sendBytes_of_le (s := s) .packet (by omega) (by rw [hlenOf, hcmd]))
  rw [hlenOf, hcmd, List.take_length] at hsend
  obtain ⟨bs, b, hsplit⟩ := exists_concat h1
  rw [hsplit, List.length_append, List.length_singleton] at hmtu
  obtain ⟨q, q', hrun, hbyte, hidle', hcur, hframe⟩ := Rx.run_frame (hi.mtu_le hm) bs b hidle hmtu
  have hpoll := Rx.poll_of_run_done (q := s.cfg.term) hrun hbyte
  rw [← wireFrame_concat, ← hsplit] at hpoll
  rw [← hsplit] at hframe
  have hcur' : q'.cursor.toNat = c.payload.length := by rw [hcur, hsplit]; simp
  refine ⟨_, _, hsend, execPollP_of_poll (r := q') (done := true) (q := s.cfg.term) hr ?_ ?_, ?_, rfl, fun i reading hlt => ?_⟩
  · simpa [State.cmd, hcmds] using hcap
  · simpa [htxh, sendImage] using hpoll
  · simp [hcur']
  · obtain ⟨v, hv⟩ : ∃ v, c.payload[i]? = some v := ⟨_, List.getElem?_eq_getElem hlt⟩
    have hi' : i < q'.cursor.toNat := by rwa [hcur']
    have hread := (Rx.read_of_frame hframe hi').trans hv
    rw [hv, Option.some.injEq]
    exact State.bufData_of_read hi' hread reading

end Sys2Proof.Machine
end
